-- ==== Sys2Proof/Word.lean ====
section
/-! DEFINITION. The widths of the machine's words (00_scope.md R5, R11). Registers of the REG space are
32-bit patterns, a sample is a 16-bit two's-complement pattern, a restored sample a 32-bit one, and an
element of OUT is a byte. All arithmetic of the units is exact and stands in Machine/Arith.lean. -/

namespace Sys2Proof

/-- A register of the REG space and a command word: 32 bits (R5 "register width", R70). -/
abbrev Word := BitVec 32

/-- A byte of OUT (R5 "output element"). -/
abbrev Byte := BitVec 8

end Sys2Proof
end

