-- ==== Sys2Proof/Syntax.lean ====
section
/-! DEFINITION. The command words as syntax: one constructor per row of spec/opcode_table.json. No command
carries an operand (30_encoding.md R73): every operand comes from the fixed registers and buffers. -/

namespace Sys2Proof

/-- The six commands (R72). -/
inductive Instr where
  /-- Run the Quantizer once (R92). -/
  | quant
  /-- Run the Frequency-Weighted Reducer once (R104). -/
  | reduce
  /-- Run the Length Restorer once (R114). -/
  | restore
  /-- Run the Range Clamper/Packer once (R124). -/
  | pack
  /-- Run all four stages in order (R137). -/
  | run
  /-- Clear PHASE to IDLE and ERR to NONE (R138). -/
  | clr
  deriving DecidableEq, Repr

end Sys2Proof
end

