-- ==== Sys2Proof/Decode.lean ====
section
/-! DEFINITION. Decoding a 32-bit command word, total and rejecting by name (30_encoding.md R70 to R78), and
the encoder written from the same table. Decode reads no state. -/

namespace Sys2Proof

/-- Why a word is no command (R74, R78). Every illegal word raises the same error, `IllegalCommand`. -/
inductive DecodeError where
  /-- Bits 31:8 (field ZERO) are not all 0. -/
  | zeroFieldSet
  /-- Bits 31:8 are 0 and OPC is none of 0x01 to 0x06. -/
  | unknownOpcode
  deriving DecidableEq, Repr

/-- Field OPC, bits 7:0 (R71). -/
def opcField (c : Word) : BitVec 8 := c.extractLsb' 0 8

/-- Field ZERO, bits 31:8 (R71). -/
def zeroField (c : Word) : BitVec 24 := c.extractLsb' 8 24

/-- R78, in the rule's own order. -/
def decode (c : Word) : Except DecodeError Instr :=
  if zeroField c ≠ 0#24 then .error .zeroFieldSet
  else if opcField c = 0x01#8 then .ok .quant
  else if opcField c = 0x02#8 then .ok .reduce
  else if opcField c = 0x03#8 then .ok .restore
  else if opcField c = 0x04#8 then .ok .pack
  else if opcField c = 0x05#8 then .ok .run
  else if opcField c = 0x06#8 then .ok .clr
  else .error .unknownOpcode

/-- The opcode of each command (R72). -/
def opcode : Instr → BitVec 8
  | .quant => 0x01#8
  | .reduce => 0x02#8
  | .restore => 0x03#8
  | .pack => 0x04#8
  | .run => 0x05#8
  | .clr => 0x06#8

/-- The command word: ZERO above OPC (R71). -/
def encode (i : Instr) : Word := 0#24 ++ opcode i

/-- The word whose bits, numbered as the opcode table numbers them, are the low `nbits` bits of `w`. -/
def tableWord (nbits w : Nat) : Word := BitVec.ofNat 32 (w % 2 ^ nbits)

/-- The instruction the decoder reads from a word of the opcode table. There is one command length, 32
bits (R70), so a longer table entry is no command. -/
def decodeTableWord (nbits w : Nat) : Option Instr :=
  if nbits ≤ 32 then
    match decode (tableWord nbits w) with
    | .ok i => some i
    | .error _ => none
  else none

end Sys2Proof
end

