-- ==== Sys2Proof/Machine/Arith.lean ====
section
/-! DEFINITION. The exact integer arithmetic the rules are written in (00_scope.md R6 to R11). Nothing here
wraps or saturates; values are narrowed once, where they are stored (Machine/Ops.lean `State.memWrite`). -/

namespace Sys2Proof.Machine

/-- `floordiv(a, d)` for d > 0: the quotient rounded toward minus infinity (R7). -/
def floordiv (a d : Int) : Int := Int.fdiv a d

/-- `mod(a, d) = a − d*floordiv(a, d)` (R7). -/
def floormod (a d : Int) : Int := a - d * floordiv a d

/-- `clamp(v, lo, hi)` for lo ≤ hi (R8). -/
def clamp (v lo hi : Int) : Int := if v < lo then lo else if v > hi then hi else v

/-- `ceildiv(n, w)` for w ≥ 1: the least m with m*w ≥ n (R9). -/
def ceildiv (n w : Nat) : Nat := (n + w - 1) / w

/-- `idiv(i, w)` (R9). -/
def idiv (i w : Nat) : Nat := i / w

/-- S16 (R11). -/
abbrev InS16 (v : Int) : Prop := -32768 ≤ v ∧ v ≤ 32767

/-- S32 (R11). -/
abbrev InS32 (v : Int) : Prop := -2147483648 ≤ v ∧ v ≤ 2147483647

end Sys2Proof.Machine
end

