-- ==== Sys2Proof/Machine/Memory.lean ====
section
/-! DEFINITION. One buffer's storage as plain data: (index, element) pairs at strictly rising indices. An
index that is not listed holds no value: nothing has written it since reset (10_state.md R42), and no
listed entry can equal that, so equal storages are equal lists. What a read of such an element gives is
decided in one place, Machine/Ops.lean `State.readElem`. -/

namespace Sys2Proof.Machine

/-- Storage of a buffer with elements of `n` bits. For OUT this is a list of `Host.Cell`. -/
abbrev Memory (n : Nat) := List (Nat × BitVec n)

/-- The element at an index, if one has been written. -/
def Memory.get {n : Nat} : Memory n → Nat → Option (BitVec n)
  | [], _ => none
  | (k, v) :: rest, i => if k = i then some v else Memory.get rest i

/-- Write one element, keeping the indices strictly rising. -/
def Memory.set {n : Nat} : Memory n → Nat → BitVec n → Memory n
  | [], i, v => [(i, v)]
  | (k, u) :: rest, i, v =>
    if i < k then (i, v) :: (k, u) :: rest
    else if i = k then (i, v) :: rest
    else (k, u) :: Memory.set rest i v

/-- Write consecutive elements from an index on, in rising order. -/
def Memory.setAll {n : Nat} : Memory n → Nat → List (BitVec n) → Memory n
  | m, _, [] => m
  | m, i, v :: vs => Memory.setAll (m.set i v) (i + 1) vs

/-- Every listed index is at least `low` and the indices rise strictly. -/
def Memory.risingFrom {n : Nat} : Nat → Memory n → Bool
  | _, [] => true
  | low, (k, _) :: rest => decide (low ≤ k) && Memory.risingFrom (k + 1) rest

/-- The canonical form: strictly rising indices. -/
def Memory.wf {n : Nat} (m : Memory n) : Bool := Memory.risingFrom 0 m

/-- Every listed index is below a capacity (R51). -/
def Memory.within {n : Nat} (cap : Nat) (m : Memory n) : Prop := ∀ e ∈ m, e.1 < cap

end Sys2Proof.Machine
end

