-- ==== Sys2Proof/Config.lean ====
section
/-! DEFINITION. What one implementation fixes and the spec leaves open: the capacity NMAX and the values
nothing constrains. Every constant here is opaque, so a theorem about the model holds whatever it is. -/

namespace Sys2Proof

/-- NMAX less one. R5 gives 1 ≤ NMAX ≤ 2^31 − 1 = 2147483647 and leaves the number open (D3, U6); log entry 3. -/
opaque Config.nmaxPred : Fin (2147483646 + 1)

/-- NMAX, the capacity of each sample buffer in elements (R5, D3). -/
def Config.nmax : Nat := Config.nmaxPred.val + 1

/-- The content of an element nothing has written since reset: any value of the element's type, drawn
once at each reset (R42, U1, U5). `draw` counts the resets, `buffer` is the buffer's number. Free value;
log entry 2. -/
opaque Config.unwritten (draw width buffer index : Nat) : BitVec width

/-- What `decode_samples` of width 2 makes of an odd number of bytes: the spec states nothing (R128,
N14). `none` stands for a failure of any kind. Free value; log entry 10. -/
opaque Config.oddWidthTwo (bytes : List Byte) : Option (List Int)

end Sys2Proof
end

