-- ==== Sys2Proof/Machine/Spaces.lean ====
section
/-! DEFINITION. The six address spaces: the register space REG and the five buffers (10_state.md R20, R30;
20_memory.md R50, R51). An index into one never reaches another. -/

namespace Sys2Proof.Machine

/-- The registers of REG (R20). -/
inductive Reg where
  | cmd | status | bits | window | len | rlen | olen
  deriving DecidableEq, Repr

/-- The register index (R20). -/
def Reg.index : Reg → Nat
  | .cmd => 0
  | .status => 1
  | .bits => 2
  | .window => 3
  | .len => 4
  | .rlen => 5
  | .olen => 6

/-- The byte offset is four times the index (R20); nothing else of the bus map is fixed (R57). -/
def Reg.offset (r : Reg) : Nat := 4 * r.index

/-- The register at an index; indices 7 and above are reserved (R36). -/
def Reg.ofIndex : Nat → Option Reg
  | 0 => some .cmd
  | 1 => some .status
  | 2 => some .bits
  | 3 => some .window
  | 4 => some .len
  | 5 => some .rlen
  | 6 => some .olen
  | _ => none

/-- The buffers (R30). -/
inductive Buf where
  | src | q | red | rst | out
  deriving DecidableEq, Repr

/-- The width of an element: S16 for SRC, Q and RED, S32 for RST, a byte for OUT (R30). -/
def Buf.width : Buf → Nat
  | .src => 16
  | .q => 16
  | .red => 16
  | .rst => 32
  | .out => 8

/-- Whether an element is read as a two's-complement integer (R30): only the bytes of OUT are not. -/
def Buf.signed : Buf → Bool
  | .src => true
  | .q => true
  | .red => true
  | .rst => true
  | .out => false

/-- The number of elements: NMAX, and 2*NMAX for OUT (R30, R51). -/
def Buf.capacity : Buf → Nat
  | .src => Config.nmax
  | .q => Config.nmax
  | .red => Config.nmax
  | .rst => Config.nmax
  | .out => 2 * Config.nmax

/-- A number for each buffer, the key of its unwritten content in `Config.unwritten`. -/
def Buf.number : Buf → Nat
  | .src => 0
  | .q => 1
  | .red => 2
  | .rst => 3
  | .out => 4

/-- An element pattern read as an integer of the buffer's type (R11 `sext_N`, `zext_N`). -/
def Buf.toInt (b : Buf) (v : BitVec b.width) : Int := if b.signed then v.toInt else (v.toNat : Int)

/-- The integers of the element type: S16, S32, or 0 to 255 (R11, R30). -/
def Buf.inRange : Buf → Int → Prop
  | .src, v => -32768 ≤ v ∧ v ≤ 32767
  | .q, v => -32768 ≤ v ∧ v ≤ 32767
  | .red, v => -32768 ≤ v ∧ v ≤ 32767
  | .rst, v => -2147483648 ≤ v ∧ v ≤ 2147483647
  | .out, v => 0 ≤ v ∧ v ≤ 255

end Sys2Proof.Machine
end

