-- ==== Sys2Proof/Machine/State.lean ====
section
/-! DEFINITION. The state of the block as plain data, the moves of HOST, and the reasons a step can stop
(10_state.md; 44_sequencer.md R141 to R146; 60_exceptions.md R150, R165). -/

namespace Sys2Proof.Machine

/-- PHASE, the block's analogue of a program counter (R24). Code 7 is never held (U10). -/
inductive Phase where
  | idle | quantizing | reducing | restoring | clamping | done | failed
  deriving DecidableEq, Repr

/-- ERR, the error code (R25, R150). -/
inductive ErrCode where
  | none
  | illegalCommand
  | badBits
  | badWindow
  | badLength
  | badReducedLength
  /-- Named by the document, raised by no rule (R126). -/
  | packError
  deriving DecidableEq, Repr

/-- One HOST action on the port (R141 to R145). Register and element indices are whatever HOST drives: the
model refuses the ones that do not exist. A value outside the element type cannot be expressed (R144). -/
inductive HostAction where
  /-- RegRead(r) (R141). -/
  | regRead (index : Nat)
  /-- RegWrite(r, v) (R142); on CMD it issues a command (R135). -/
  | regWrite (index : Nat) (value : Word)
  /-- BufRead(B, i) (R143). -/
  | bufRead (b : Buf) (index : Nat)
  /-- BufWrite(B, i, v) (R144). -/
  | bufWrite (b : Buf) (index : Nat) (value : BitVec b.width)
  /-- Reset (R145). -/
  | reset
  deriving DecidableEq, Repr

/-- What HOST does when its turn comes. The order of HOST's and SEQ's steps is not fixed (R181), so it is
data: a `pause` gives the turn to SEQ. Log entry 1. -/
inductive HostMove where
  /-- One access, atomic (R55). -/
  | access (a : HostAction)
  /-- HOST makes no access; SEQ takes its step if it has one. -/
  | pause
  /-- The pseudo-line WAIT: read STATUS until BUSY is 0 (R77). -/
  | wait
  deriving DecidableEq, Repr

/-- A value that has crossed the port to HOST, in the type of the register or element read (R141, R143). -/
inductive PortValue where
  | reg (r : Reg) (value : Word)
  | elem (b : Buf) (value : BitVec b.width)
  deriving DecidableEq, Repr

/-- The whole state. CMD and STATUS are not storage elements (R21, R22); the Reducer's frequency map is
scratch of one step (R33). -/
structure State where
  /-- PHASE (R24). -/
  phase : Phase
  /-- ERR (R25). -/
  err : ErrCode
  /-- CHAIN: a RUN is in progress (R32). -/
  chain : Bool
  /-- BITS, the target bit depth b (R26). -/
  bits : Word
  /-- WINDOW, the window size w (R27). -/
  window : Word
  /-- LEN, the sample count n (R28). -/
  len : Word
  /-- RLEN, the length m of the reduced sequence (R29). -/
  rlen : Word
  /-- OLEN, the number of bytes PACK last wrote (R31). -/
  olen : Word
  /-- SRC, the input samples (R30). -/
  src : Memory 16
  /-- Q, the quantized sequence (R30). -/
  q : Memory 16
  /-- RED, the reduced sequence (R30). -/
  red : Memory 16
  /-- RST, the restored sequence (R30). -/
  rst : Memory 32
  /-- OUT, the packed bytes (R30). -/
  out : Memory 8
  /-- The model's own: how many resets there have been, the key of the unwritten content (log entry 2). -/
  draw : Nat
  /-- The model's own: HOST's moves still to come, the next one first (log entry 1). -/
  host : List HostMove
  /-- The model's own: the values HOST has read, the latest first (log entry 4). -/
  received : List PortValue
  deriving DecidableEq, Repr

/-- The reasons for which the machine would stop with a fault: the spec gives none. An error of the block is
defined behaviour, the phase FAILED (R165), so it is a next state, and no step of the model faults. -/
inductive Fault where
  deriving DecidableEq, Repr

/-- The accesses to which the spec gives no meaning (R165). All are safe: the model has no step where the
hardware has one the spec does not describe. -/
inductive Refusal where
  /-- An arm of `exec` without a meaning. No arm answers it. Safe. -/
  | notModelled (mnemonic : String)
  /-- A HOST access while BUSY other than a read of STATUS or CMD (R60, R146, R175, U3). Raised by the host
  port and by every command written while BUSY. Safe. -/
  | accessWhileBusy
  /-- A HOST access to register index 7 or above (R36, U4). Raised by the host port. Safe. -/
  | reservedRegister
  /-- A HOST access to an element index outside its buffer (R51, U4). Raised by the host port. Safe. -/
  | illegalIndex
  /-- SEQ's step in a stage whose operand registers are outside the domain of the stage's function (U2). No
  run reaches it, because a command is checked before it is accepted (R153). Safe. -/
  | operandsOutsideDomain
  deriving DecidableEq, Repr

/-- The machine right after reset (R40): BITS and WINDOW at the document's defaults, the rest at rest, no
element written, no HOST move to come. -/
def State.reset : State where
  phase := .idle
  err := .none
  chain := false
  bits := 8#32
  window := 3#32
  len := 0#32
  rlen := 0#32
  olen := 0#32
  src := []
  q := []
  red := []
  rst := []
  out := []
  draw := 0
  host := []
  received := []

/-- What a step answers. -/
abbrev Result := Host.Outcome State Fault Refusal

end Sys2Proof.Machine
end

