-- ==== Sys2Proof/Machine/Ops.lean ====
section
/-! DEFINITION. The shared operations over buffers and the sequencer's control state: reading and writing
elements (00_scope.md R12), the failure entry and CLR (60_exceptions.md R156, 44_sequencer.md R138), and the
advance of PHASE at the end of a stage (R136). -/

namespace Sys2Proof.Machine

/-- A buffer's storage. -/
def State.buf (s : State) : (b : Buf) → Memory b.width
  | .src => s.src
  | .q => s.q
  | .red => s.red
  | .rst => s.rst
  | .out => s.out

/-- Replace a buffer's storage. -/
def State.setBuf (s : State) (b : Buf) (m : Memory b.width) : State :=
  match b, m with
  | .src, m => { s with src := m }
  | .q, m => { s with q := m }
  | .red, m => { s with red := m }
  | .rst, m => { s with rst := m }
  | .out, m => { s with out := m }

/-- One element's pattern. An element nothing has written since reset holds a free value of its type, drawn
at that reset (R42, U1). -/
def State.readElem (s : State) (b : Buf) (i : Nat) : BitVec b.width :=
  match (s.buf b).get i with
  | some v => v
  | none => Config.unwritten s.draw b.width b.number i

/-- One element as an integer of the buffer's type. -/
def State.readInt (s : State) (b : Buf) (i : Nat) : Int := b.toInt (s.readElem b i)

/-- One byte of OUT. -/
def State.outByte (s : State) (i : Nat) : Byte := s.readElem .out i

/-- `MemRead(B+i, n)` (R12). -/
def State.memRead (s : State) (b : Buf) (i n : Nat) : List Int :=
  (List.range n).map fun j => s.readInt b (i + j)

/-- Write one element's pattern. -/
def State.writeElem (s : State) (b : Buf) (i : Nat) (v : BitVec b.width) : State :=
  s.setBuf b ((s.buf b).set i v)

/-- `MemWrite(B+i, n, V)` (R12): each integer is stored as `tc_N` of the element width (R11). That no value an
operation writes is changed by the narrowing is R34. -/
def State.memWrite (s : State) (b : Buf) (i : Nat) (vs : List Int) : State :=
  s.setBuf b ((s.buf b).setAll i (vs.map (BitVec.ofInt b.width)))

/-- Failure entry (R156): the one way FAILED is entered. -/
def State.raise (s : State) (e : ErrCode) : State :=
  { s with err := e, chain := false, phase := .failed }

/-- What CLR does, the one way a command leaves FAILED (R138, R158). -/
def State.clear (s : State) : State :=
  { s with err := .none, chain := false, phase := .idle }

/-- Acceptance of a command: its first stage is next, CHAIN says whether more stages follow (R135). -/
def State.start (s : State) (first : Phase) (chain : Bool) : State :=
  { s with chain := chain, phase := first }

/-- The end of a stage that others can follow: on to `next` in a RUN, else DONE (R136). -/
def State.advance (s : State) (next : Phase) : State :=
  { s with phase := bif s.chain then next else .done }

/-- The end of the last stage (R124, R136). -/
def State.finish (s : State) : State :=
  { s with chain := false, phase := .done }

/-- HOST's coming moves become `moves`. -/
def State.setHost (s : State) (moves : List HostMove) : State := { s with host := moves }

/-- HOST receives a value. -/
def State.receive (s : State) (v : PortValue) : State := { s with received := v :: s.received }

/-- Reset, total and immediate (R170): the state of R40, with every element's content drawn anew (R42, U5).
HOST's coming moves and what it has read are not the block's. -/
def State.resetBlock (s : State) : State :=
  { State.reset with draw := s.draw + 1, host := s.host, received := s.received }

end Sys2Proof.Machine
end

