-- ==== Sys2Proof/Machine/Flags.lean ====
section
/-! DEFINITION. The status flags and the view STATUS (10_state.md R22, R24, R25, R35; 60_exceptions.md R150).
No arithmetic operation sets a flag: BUSY, DONE and FAILED are functions of PHASE. -/

namespace Sys2Proof.Machine

/-- The phase code (R24). -/
def Phase.code : Phase → Nat
  | .idle => 0
  | .quantizing => 1
  | .reducing => 2
  | .restoring => 3
  | .clamping => 4
  | .done => 5
  | .failed => 6

/-- BUSY: PHASE is a stage (R22). -/
def Phase.busy : Phase → Bool
  | .idle => false
  | .quantizing => true
  | .reducing => true
  | .restoring => true
  | .clamping => true
  | .done => false
  | .failed => false

/-- The error code (R150). -/
def ErrCode.code : ErrCode → Nat
  | .none => 0
  | .illegalCommand => 1
  | .badBits => 2
  | .badWindow => 3
  | .badLength => 4
  | .badReducedLength => 5
  | .packError => 6

/-- BUSY (R22, R35). -/
def State.busy (s : State) : Bool := s.phase.busy

/-- DONE (R22, R35). -/
def State.isDone (s : State) : Bool := decide (s.phase = .done)

/-- FAILED (R22, R35). -/
def State.isFailed (s : State) : Bool := decide (s.phase = .failed)

/-- IDLE or DONE: a command other than CLR can be accepted (R135). -/
def State.atRest (s : State) : Bool := decide (s.phase = .idle ∨ s.phase = .done)

/-- STATUS (R22): PHASE in bits 2:0, BUSY, DONE and FAILED in bits 3, 4 and 5, ERR in bits 11:8, the rest 0. -/
def State.status (s : State) : Word :=
  BitVec.ofNat 32 (s.phase.code + 8 * s.busy.toNat + 16 * s.isDone.toNat + 32 * s.isFailed.toNat
    + 256 * s.err.code)

end Sys2Proof.Machine
end

