-- ==== Sys2Proof/Machine/Operands.lean ====
section
/-! DEFINITION. The operand registers as the rules read them and the legality checks made when a command is
accepted (10_state.md R26 to R29; 60_exceptions.md R153, R154). -/

namespace Sys2Proof.Machine

/-- b = x[BITS], unsigned (R26). -/
def State.depth (s : State) : Nat := s.bits.toNat

/-- w = x[WINDOW], unsigned (R27). -/
def State.windowSize (s : State) : Nat := s.window.toNat

/-- n = x[LEN], unsigned (R28). -/
def State.count (s : State) : Nat := s.len.toNat

/-- m = x[RLEN], unsigned (R29). -/
def State.reducedCount (s : State) : Nat := s.rlen.toNat

/-- The checks of R153, in the order of R154. -/
inductive Check where
  | bits | window | len | rlen
  deriving DecidableEq, Repr

/-- Whether an operand register is legal: full 32-bit unsigned comparisons (R153). -/
def Check.holds : Check → State → Bool
  | .bits, s => decide (1 ≤ s.depth ∧ s.depth ≤ 16)
  | .window, s => decide (1 ≤ s.windowSize)
  | .len, s => decide (s.count ≤ Config.nmax)
  | .rlen, s => decide (s.reducedCount ≤ Config.nmax)

/-- The error a failed check raises (R150, R153). -/
def Check.error : Check → ErrCode
  | .bits => .badBits
  | .window => .badWindow
  | .len => .badLength
  | .rlen => .badReducedLength

/-- The error of the first check that fails, left to right; the later ones are not evaluated (R154). -/
def firstFailure : List Check → State → Option ErrCode
  | [], _ => none
  | c :: cs, s => if c.holds s then firstFailure cs s else some c.error

/-- All of a list of checks hold. -/
def allHold (cs : List Check) (s : State) : Bool := cs.all fun c => c.holds s

end Sys2Proof.Machine
end

