-- ==== Sys2Proof/Machine/Sequencer.lean ====
section
/-! DEFINITION. How a command is accepted and how a stage is entered (44_sequencer.md R135, R136), and the two
commands that belong to no unit: RUN (R137) and CLR (R138). -/

namespace Sys2Proof.Machine

/-- A word written to CMD, by phase (R135): refused while BUSY, in FAILED and at rest as the arguments say. -/
def onCommand (failed atRest : State → State) (s : State) : Result :=
  match s.phase with
  | .idle => .next (atRest s)
  | .done => .next (atRest s)
  | .failed => .next (failed s)
  | .quantizing => .refused .accessWhileBusy
  | .reducing => .refused .accessWhileBusy
  | .restoring => .refused .accessWhileBusy
  | .clamping => .refused .accessWhileBusy

/-- At rest, a command other than CLR: the checks in order, then acceptance (R135, R153, R154). -/
def checkAndStart (checks : List Check) (first : Phase) (chain : Bool) (s : State) : State :=
  match firstFailure checks s with
  | some e => s.raise e
  | none => s.start first chain

/-- A command other than CLR; in FAILED it is ignored (R157). -/
def issue (checks : List Check) (first : Phase) (chain : Bool) (s : State) : Result :=
  onCommand id (checkAndStart checks first chain) s

/-- An illegal word: `IllegalCommand` at rest, ignored in FAILED (R74, R135, R157). -/
def issueIllegal (s : State) : Result :=
  onCommand id (fun s => s.raise .illegalCommand) s

/-- A stage as one atomic step of SEQ (R136). The operands were checked at acceptance; outside the domain of
the stage's function the spec defines nothing (U2). -/
def runStage (domain : List Check) (effect : State → State) (s : State) : Result :=
  if allHold domain s then .next (effect s) else .refused .operandsOutsideDomain

/-- RUN's checks (R153): RLEN is not checked, REDUCING overwrites it before RESTORING reads it (R137). -/
def runChecks : List Check := [.bits, .window, .len]

/-- RUN: the four stages in order, marked by CHAIN (R137). -/
def execRun (s : State) : Result := issue runChecks .quantizing true s

/-- CLR, executed inside the CMD write; the only command with an effect in FAILED (R138). -/
def execClr (s : State) : Result := onCommand State.clear State.clear s

end Sys2Proof.Machine
end

