-- ==== Sys2Proof/Machine/Downsampler.lean ====
section
/-! DEFINITION. The frequency-weighted downsampler: the global frequency map, the windows, the representative,
the stage REDUCING and the command REDUCE (41_downsampler.md). -/

namespace Sys2Proof.Machine

/-- `freq(Q)(v)`: how often v occurs in the whole sequence, an exact count (R100, R106). -/
def freq (q : List Int) (v : Int) : Nat := q.count v

/-- `lo(k)` (R101). -/
def windowLo (k w : Nat) : Nat := k * w

/-- `hi(k)`, exclusive (R101). -/
def windowHi (k w n : Nat) : Nat := min ((k + 1) * w) n

/-- Window k of a sequence: the indices `lo(k)` to `hi(k)` (R101). -/
def windowAt (q : List Int) (w k : Nat) : List Int :=
  (q.drop (windowLo k w)).take (windowHi k w q.length - windowLo k w)

/-- One iteration of `rep`: strictly greater, an equal count does not replace (R102). -/
def better (f : Int → Nat) (best v : Int) : Int := if f v > f best then v else best

/-- `rep` of one window (R102). An empty window, which R101 excludes, has none. -/
def representative (f : Int → Nat) : List Int → Option Int
  | [] => none
  | v :: rest => some (rest.foldl (better f) v)

/-- `reduce(Q, w)` for w ≥ 1: one representative per window, in window order (R103). -/
def reduce (q : List Int) (w : Nat) : List Int :=
  (List.range (ceildiv q.length w)).filterMap fun k => representative (freq q) (windowAt q w k)

/-- REDUCE's checks (R153). -/
def reduceChecks : List Check := [.window, .len]

/-- Write the reduced sequence and its length (R104). -/
def State.storeReduced (s : State) (r : List Int) : State :=
  { s.memWrite .red 0 r with rlen := BitVec.ofNat 32 r.length }

/-- What the stage REDUCING does (R104). -/
def reduceEffect (s : State) : State :=
  (s.storeReduced (reduce (s.memRead .q 0 s.count) s.windowSize)).advance .restoring

/-- SEQ's step in REDUCING (R104, R136). -/
def stageReduce (s : State) : Result := runStage reduceChecks reduceEffect s

/-- REDUCE written to CMD (R104, R135). -/
def execReduce (s : State) : Result := issue reduceChecks .reducing false s

end Sys2Proof.Machine
end

