-- ==== Sys2Proof/Machine/Packer.lean ====
section
/-! DEFINITION. The sample packer: the clip to 16 bits, the little-endian byte layout, the stage CLAMPING and
the command PACK; and, outside the block, the reference inverse `decode_samples` (43_packer.md). -/

namespace Sys2Proof.Machine

/-- `clamp16(v)` (R120). -/
def clamp16 (v : Int) : Int := clamp v (-32768) 32767

/-- `encode16(v)`: the two bytes of `tc_16(v)`, the least significant first (R121, R52). -/
def encode16 (v : Int) : List Byte :=
  [(BitVec.ofInt 16 v).extractLsb' 0 8, (BitVec.ofInt 16 v).extractLsb' 8 8]

/-- `encode_samples(T)`: `PackError` if an element is outside the 16-bit range (R122). -/
def encodeSamples (t : List Int) : Except ErrCode (List Byte) :=
  if ∀ v ∈ t, InS16 v then .ok (t.flatMap encode16) else .error .packError

/-- The bytes PACK emits for a sequence: each sample clipped, then encoded (R123, R124). -/
def clampAndPack (t : List Int) : List Byte := t.flatMap fun v => encode16 (clamp16 v)

/-- PACK's check (R153). -/
def packChecks : List Check := [.len]

/-- Write the packed bytes and their number (R124). -/
def State.storePacked (s : State) (bytes : List Byte) : State :=
  { s.memWrite .out 0 (bytes.map fun p => (p.toNat : Int)) with olen := BitVec.ofNat 32 (2 * s.count) }

/-- What the stage CLAMPING does (R124). -/
def packEffect (s : State) : State :=
  (s.storePacked (clampAndPack (s.memRead .rst 0 s.count))).finish

/-- SEQ's step in CLAMPING (R124, R136). -/
def stagePack (s : State) : Result := runStage packChecks packEffect s

/-- PACK written to CMD (R124, R135). -/
def execPack (s : State) : Result := issue packChecks .clamping false s

/-- Why `decode_samples` fails (R128). -/
inductive ContainerError where
  /-- The width is neither 1 nor 2 (R128, R152). -/
  | unsupportedSampleWidth
  /-- An odd number of bytes at width 2, where the spec states nothing (N14). -/
  | oddByteCount
  deriving DecidableEq, Repr

/-- Width 2: little-endian pairs (R128). -/
def decodePairs : List Byte → List Int
  | lo :: hi :: rest => (hi ++ lo : BitVec 16).toInt :: decodePairs rest
  | _ => []

/-- `decode_samples(B, sample_width)`, the reference contract of the component that feeds SRC; no command
(R128). What width 2 does with an odd number of bytes is a free value. -/
def decodeSamples (bytes : List Byte) (width : Nat) : Except ContainerError (List Int) :=
  if width = 1 then .ok (bytes.map fun p => (p.toNat : Int) - 128)
  else if width = 2 then
    if bytes.length % 2 = 0 then .ok (decodePairs bytes)
    else match Config.oddWidthTwo bytes with
      | some t => .ok t
      | none => .error .oddByteCount
  else .error .unsupportedSampleWidth

end Sys2Proof.Machine
end

