-- ==== Sys2Proof/Machine/Quantizer.lean ====
section
/-! DEFINITION. The quantizer: its arithmetic, its stage QUANTIZING and the command QUANT (40_quantizer.md). -/

namespace Sys2Proof.Machine

/-- The divisor and scale 2^(16−b) (R90, R110). -/
def scale (b : Nat) : Int := 2 ^ (16 - b)

/-- `min_val` for depth b (R26, R90). -/
def minVal (b : Nat) : Int := -(2 ^ (b - 1))

/-- `max_val` for depth b (R26, R90). -/
def maxVal (b : Nat) : Int := 2 ^ (b - 1) - 1

/-- `quantize_one(s, b)` for 1 ≤ b ≤ 16 (R90). -/
def quantizeOne (v : Int) (b : Nat) : Int := clamp (floordiv v (scale b)) (minVal b) (maxVal b)

/-- `quantize(S, b)` (R91). -/
def quantize (vs : List Int) (b : Nat) : List Int := vs.map fun v => quantizeOne v b

/-- QUANT's checks (R153). -/
def quantChecks : List Check := [.bits, .len]

/-- What the stage QUANTIZING does (R92). -/
def quantizeEffect (s : State) : State :=
  (s.memWrite .q 0 (quantize (s.memRead .src 0 s.count) s.depth)).advance .reducing

/-- SEQ's step in QUANTIZING (R92, R136). -/
def stageQuantize (s : State) : Result := runStage quantChecks quantizeEffect s

/-- QUANT written to CMD (R92, R135). -/
def execQuant (s : State) : Result := issue quantChecks .quantizing false s

end Sys2Proof.Machine
end

