-- ==== Sys2Proof/Machine/Upsampler.lean ====
section
/-! DEFINITION. The length-restoring upsampler: rescaling, replication, the forced length, the stage RESTORING
and the command RESTORE (42_upsampler.md). -/

namespace Sys2Proof.Machine

/-- `rescale(v, b) = v * 2^(16−b)`, exact (R110). -/
def rescale (v : Int) (b : Nat) : Int := v * scale b

/-- `expand(R, b, w)`: each representative w times, rescaled, in order (R111). -/
def expand (r : List Int) (b w : Nat) : List Int := r.flatMap fun v => List.replicate w (rescale v b)

/-- Forcing the length L: pad with zeros at the end or truncate (R112). -/
def forceLength (e : List Int) (l : Nat) : List Int :=
  if e.length < l then e ++ List.replicate (l - e.length) 0 else e.take l

/-- `restore(R, L, b, w)` in the closed form the hardware uses (R113): the product m*w is never formed. -/
def restore (r : List Int) (l b w : Nat) : List Int :=
  (List.range l).map fun i =>
    match r[idiv i w]? with
    | some v => rescale v b
    | none => 0

/-- RESTORE's checks (R153). -/
def restoreChecks : List Check := [.bits, .window, .len, .rlen]

/-- The domain of the stage (R113): RLEN is not checked again inside RUN (R114). -/
def restoreDomain : List Check := [.bits, .window, .len]

/-- What the stage RESTORING does (R114). -/
def restoreEffect (s : State) : State :=
  (s.memWrite .rst 0
    (restore (s.memRead .red 0 s.reducedCount) s.count s.depth s.windowSize)).advance .clamping

/-- SEQ's step in RESTORING (R114, R136). -/
def stageRestore (s : State) : Result := runStage restoreDomain restoreEffect s

/-- RESTORE written to CMD (R114, R135). -/
def execRestore (s : State) : Result := issue restoreChecks .restoring false s

end Sys2Proof.Machine
end

