-- ==== Sys2Proof/Machine/Dispatch.lean ====
section
/-! DEFINITION. A command written to CMD: one arm per row of spec/opcode_table.json, each one call of the
command's meaning. The stage the command starts is SEQ's own step (Machine/Stages.lean). -/

namespace Sys2Proof.Machine

-- The effect of writing a decoded command to CMD (R135).
def exec (i : Instr) (s : State) : Host.Outcome State Fault Refusal :=
  match i with
  | .quant => Sys2Proof.Machine.execQuant s
  | .reduce => Sys2Proof.Machine.execReduce s
  | .restore => Sys2Proof.Machine.execRestore s
  | .pack => Sys2Proof.Machine.execPack s
  | .run => Sys2Proof.Machine.execRun s
  | .clr => Sys2Proof.Machine.execClr s

end Sys2Proof.Machine
end

