-- ==== Sys2Proof/WellFormed.lean ====
section
/-! DEFINITION. When a term is well formed. A command has no operand (R73), so every command is; a HOST access
is when its index is inside its space (20_memory.md R51; R36). Values and buffers are typed already. -/

namespace Sys2Proof

/-- Every command is well formed: there is no field to check (R71, R73). -/
def Instr.wellFormed : Instr → Bool
  | .quant => true
  | .reduce => true
  | .restore => true
  | .pack => true
  | .run => true
  | .clr => true

/-- Register index 0 to 6 (R51). -/
def Machine.legalRegIndex (r : Nat) : Bool := decide (r ≤ 6)

/-- Element index below the buffer's capacity (R51). -/
def Machine.legalElemIndex (b : Machine.Buf) (i : Nat) : Bool := decide (i < b.capacity)

/-- A HOST action whose index is inside its space (R51). -/
def Machine.HostAction.wellFormed : Machine.HostAction → Bool
  | .regRead r => Machine.legalRegIndex r
  | .regWrite r _ => Machine.legalRegIndex r
  | .bufRead b i => Machine.legalElemIndex b i
  | .bufWrite b i _ => Machine.legalElemIndex b i
  | .reset => true

end Sys2Proof
end

