-- ==== Sys2Proof/Machine/HostPort.lean ====
section
/-! DEFINITION. The host port: RegRead, RegWrite, BufRead, BufWrite and Reset, and the phases in which each has
a meaning (44_sequencer.md R141 to R146; 60_exceptions.md R165). -/

namespace Sys2Proof.Machine

/-- What a read of a register returns: 0 for CMD, the view for STATUS, else the stored value (R141). -/
def State.regValue (s : State) : Reg → Word
  | .cmd => 0#32
  | .status => s.status
  | .bits => s.bits
  | .window => s.window
  | .len => s.len
  | .rlen => s.rlen
  | .olen => s.olen

/-- The registers with a meaning to read in every phase (R141, R146). -/
def Reg.readableWhileBusy : Reg → Bool
  | .cmd => true
  | .status => true
  | .bits => false
  | .window => false
  | .len => false
  | .rlen => false
  | .olen => false

/-- An access that has a meaning only when not BUSY (R146, R175). -/
def whenNotBusy (s : State) (r : Result) : Result :=
  if s.busy then .refused .accessWhileBusy else r

/-- A 32-bit word written to CMD (R21, R135). -/
def writeCommand (c : Word) (s : State) : Result :=
  match decode c with
  | .ok i => exec i s
  | .error _ => issueIllegal s

/-- A write to a register other than CMD: BITS, WINDOW, LEN and RLEN store the value whole and unchecked,
STATUS and OLEN ignore it (R142, R26 to R29). -/
def State.storeReg (s : State) : Reg → Word → State
  | .cmd, _ => s
  | .status, _ => s
  | .bits, v => { s with bits := v }
  | .window, v => { s with window := v }
  | .len, v => { s with len := v }
  | .rlen, v => { s with rlen := v }
  | .olen, _ => s

/-- RegRead(r) (R141). -/
def regRead (index : Nat) (s : State) : Result :=
  match Reg.ofIndex index with
  | none => .refused .reservedRegister
  | some r =>
    if r.readableWhileBusy then .next (s.receive (.reg r (s.regValue r)))
    else whenNotBusy s (.next (s.receive (.reg r (s.regValue r))))

/-- RegWrite(r, v) (R142). -/
def regWrite (index : Nat) (v : Word) (s : State) : Result :=
  match Reg.ofIndex index with
  | none => .refused .reservedRegister
  | some .cmd => writeCommand v s
  | some .status => whenNotBusy s (.next (s.storeReg .status v))
  | some .bits => whenNotBusy s (.next (s.storeReg .bits v))
  | some .window => whenNotBusy s (.next (s.storeReg .window v))
  | some .len => whenNotBusy s (.next (s.storeReg .len v))
  | some .rlen => whenNotBusy s (.next (s.storeReg .rlen v))
  | some .olen => whenNotBusy s (.next (s.storeReg .olen v))

/-- BufRead(B, i) (R143). -/
def bufRead (b : Buf) (index : Nat) (s : State) : Result :=
  if legalElemIndex b index then
    whenNotBusy s (.next (s.receive (.elem b (s.readElem b index))))
  else .refused .illegalIndex

/-- The buffers HOST can write: a write to OUT is ignored (R30, R144). -/
def Buf.hostWritable : Buf → Bool
  | .src => true
  | .q => true
  | .red => true
  | .rst => true
  | .out => false

/-- BufWrite(B, i, v) (R144). -/
def bufWrite (b : Buf) (index : Nat) (v : BitVec b.width) (s : State) : Result :=
  if legalElemIndex b index then
    whenNotBusy s (.next (if b.hostWritable then s.writeElem b index v else s))
  else .refused .illegalIndex

/-- One HOST action (R141 to R145). -/
def hostAccess (a : HostAction) (s : State) : Result :=
  match a with
  | .regRead i => regRead i s
  | .regWrite i v => regWrite i v s
  | .bufRead b i => bufRead b i s
  | .bufWrite b i v => bufWrite b i v s
  | .reset => .next s.resetBlock

/-- One poll of WAIT: read STATUS; while BUSY is 1, give SEQ a turn and poll again (R77, R181). The number of
polls is not fixed by the spec; log entry 1. -/
def pollStatus (s : State) : State :=
  if s.busy then (s.receive (.reg .status s.status)).setHost (.pause :: .wait :: s.host)
  else s.receive (.reg .status s.status)

end Sys2Proof.Machine
end

