-- ==== Sys2Proof/Machine/Stages.lean ====
section
/-! DEFINITION. SEQ's step: the whole stage PHASE names, atomically (44_sequencer.md R136). -/

namespace Sys2Proof.Machine

/-- SEQ's turn. SEQ has a step exactly when BUSY; at rest the block stays as it is (R23, R136, R164). -/
def seqTurn (s : State) : Result :=
  match s.phase with
  | .idle => .next s
  | .quantizing => stageQuantize s
  | .reducing => stageReduce s
  | .restoring => stageRestore s
  | .clamping => stagePack s
  | .done => .next s
  | .failed => .next s

end Sys2Proof.Machine
end

