-- ==== Sys2Proof/Machine/Step.lean ====
section
/-! DEFINITION. One step of the machine: HOST's next move if it has one, else SEQ's turn (10_state.md R23).
The interleaving of the two agents, which the spec leaves open (R181), is the data of `State.host`. -/

namespace Sys2Proof.Machine

/-- One step. A move is consumed by the step that makes it (R62). -/
def step (s : State) : Host.Outcome State Fault Refusal :=
  match s.host with
  | [] => seqTurn s
  | .access a :: rest => hostAccess a (s.setHost rest)
  | .pause :: rest => seqTurn (s.setHost rest)
  | .wait :: rest => .next (pollStatus (s.setHost rest))

/-- The state with a command word of the opcode table as HOST's next move: a write of that word to CMD. There
is no instruction memory (R62), so this is where a command is fetched from. -/
def State.withFetchWord (s : State) (nbits w : Nat) : State :=
  s.setHost (.access (.regWrite Reg.cmd.index (tableWord nbits w)) :: s.host)

end Sys2Proof.Machine
end

