-- ==== Sys2Proof/Machine/Script.lean ====
section
/-! DEFINITION. The host-script notation of the spec (30_encoding.md R76, R77): each line's moves on the port. -/

namespace Sys2Proof.Machine

/-- One line of a host script (R76) or a pseudo-line (R77). A value is one of the element type (R144). -/
inductive ScriptLine where
  | wr (r : Reg) (v : Word)
  | rd (r : Reg)
  | st (b : Buf) (i : Nat) (v : BitVec b.width)
  | ld (b : Buf) (i : Nat)
  | reset
  | command (i : Instr)
  | wait
  | fill (b : Buf) (vs : List (BitVec b.width))
  | dump (b : Buf) (k : Nat)
  deriving DecidableEq, Repr

/-- The stores of `FILL` from an index on (R77). -/
def fillMoves (b : Buf) : Nat → List (BitVec b.width) → List HostMove
  | _, [] => []
  | i, v :: vs => HostMove.access (.bufWrite b i v) :: fillMoves b (i + 1) vs

/-- The moves of one line (R76, R77). -/
def ScriptLine.moves : ScriptLine → List HostMove
  | .wr r v => [.access (.regWrite r.index v)]
  | .rd r => [.access (.regRead r.index)]
  | .st b i v => [.access (.bufWrite b i v)]
  | .ld b i => [.access (.bufRead b i)]
  | .reset => [.access .reset]
  | .command i => [.access (.regWrite Reg.cmd.index (encode i))]
  | .wait => [.wait]
  | .fill b vs => fillMoves b 0 vs
  | .dump b k => (List.range k).map fun i => .access (.bufRead b i)

/-- The moves of a script, in order (R76). -/
def scriptMoves (ls : List ScriptLine) : List HostMove := ls.flatMap ScriptLine.moves

end Sys2Proof.Machine
end

