-- ==== Sys2Proof/Safety.lean ====
section
/-! DEFINITION. The terms claims are stated in: the invariant of the block, which HOST actions have a meaning
(44_sequencer.md R146), and what a step leaves unchanged. -/

namespace Sys2Proof.Machine

/-- The operand registers a stage and the stages after it rely on are legal: they were checked when the command
was accepted (R153) and nothing changes them while BUSY (R60, R62). At rest CHAIN is 0 (R32). -/
def State.stageReady (s : State) : Prop :=
  match s.phase with
  | .idle => s.chain = false
  | .quantizing => allHold quantChecks s = true ∧ (s.chain = true → allHold runChecks s = true)
  | .reducing => allHold reduceChecks s = true ∧ (s.chain = true → allHold runChecks s = true)
  | .restoring => allHold restoreChecks s = true
  | .clamping => allHold packChecks s = true
  | .done => s.chain = false
  | .failed => s.chain = false

/-- The invariant of the block. -/
structure State.Inv (s : State) : Prop where
  /-- Every buffer's storage is in canonical form. -/
  wf : ∀ b, (s.buf b).wf = true
  /-- No element outside a buffer's index range exists (R51). -/
  within : ∀ b, (s.buf b).within b.capacity
  /-- ERR is NONE exactly when PHASE is not FAILED (R25). -/
  err_none_iff : s.err = .none ↔ s.phase ≠ .failed
  /-- ERR never holds `PackError` (R126). -/
  err_reachable : s.err ≠ .packError
  /-- CHAIN and the operand registers fit PHASE. -/
  ready : s.stageReady
  /-- OLEN is twice a legal length (R31, R34). -/
  olen_even : ∃ n, n ≤ Config.nmax ∧ s.olen.toNat = 2 * n

/-- The HOST actions that have a meaning in a state: the table of R146. -/
def HostAction.hasMeaning (s : State) : HostAction → Prop
  | .regRead r => r ≤ 6 ∧ (s.busy = true → r ≤ 1)
  | .regWrite r _ => r ≤ 6 ∧ s.busy = false
  | .bufRead b i => i < b.capacity ∧ s.busy = false
  | .bufWrite b i _ => i < b.capacity ∧ s.busy = false
  | .reset => True

/-- `k` turns of SEQ in a row. A RUN is four, any other accepted command one (R136, R137, R181). -/
def seqTurns : Nat → State → Result
  | 0, s => .next s
  | k + 1, s =>
    match seqTurn s with
    | .next t => seqTurns k t
    | .fault f => .fault f
    | .refused r => .refused r

/-- Every element of every buffer reads as before. -/
def SameElements (s t : State) : Prop := ∀ b i, t.readElem b i = s.readElem b i

/-- Every element reads as before, but for elements 0 to n − 1 of buffer `b`. -/
def SameElementsBut (b : Buf) (n : Nat) (s t : State) : Prop :=
  ∀ c i, (c = b → n ≤ i) → t.readElem c i = s.readElem c i

/-- BITS, WINDOW and LEN hold what they held. -/
def SameOperands (s t : State) : Prop := t.bits = s.bits ∧ t.window = s.window ∧ t.len = s.len

/-- The model's own fields are as before: no reset, no HOST move consumed, nothing received. -/
def SameOutside (s t : State) : Prop := t.draw = s.draw ∧ t.host = s.host ∧ t.received = s.received

end Sys2Proof.Machine
end

