-- ==== Sys2Proof/Certificates/Slice0/Obligations.lean ====
section
/-! DEFINITION. The statements for the provers, from the numbered rules of spec/. Where a statement rests on a
choice of the model, its docstring names the log entry. -/

open Sys2Proof Sys2Proof.Machine

/-! ### Encoding -/

/-- R72, R74: the words written out from the encoding table, and five illegal words. -/
def Obligations.DecodesTheTablesWords : Prop :=
  decode 0x00000001#32 = .ok .quant ∧ decode 0x00000002#32 = .ok .reduce ∧
  decode 0x00000003#32 = .ok .restore ∧ decode 0x00000004#32 = .ok .pack ∧
  decode 0x00000005#32 = .ok .run ∧ decode 0x00000006#32 = .ok .clr ∧
  decode 0x00000000#32 = .error .unknownOpcode ∧ decode 0x00000007#32 = .error .unknownOpcode ∧
  decode 0x000000FF#32 = .error .unknownOpcode ∧ decode 0x00000101#32 = .error .zeroFieldSet ∧
  decode 0x80000005#32 = .error .zeroFieldSet

/-- Decoding an encoded command gives it back, for every command. -/
def Obligations.DecodeOfEncode : Prop := ∀ i : Instr, decode (encode i) = .ok i

/-- R78: decode is total, and each of the 2^32 words is one of the six commands or illegal. -/
def Obligations.EveryWordIsACommandOrIllegal : Prop :=
  ∀ c : Word,
    (decode c = .ok .quant ↔ c.toNat = 1) ∧ (decode c = .ok .reduce ↔ c.toNat = 2) ∧
    (decode c = .ok .restore ↔ c.toNat = 3) ∧ (decode c = .ok .pack ↔ c.toNat = 4) ∧
    (decode c = .ok .run ↔ c.toNat = 5) ∧ (decode c = .ok .clr ↔ c.toNat = 6) ∧
    ((∃ e, decode c = .error e) ↔ c.toNat = 0 ∨ 7 ≤ c.toNat)

/-! ### Steps and the host port -/

/-- R21, R135: a step at which HOST writes a word to CMD that decodes to a command is `exec` of that command, on the
state from which that move of HOST has been consumed (R62). The pending moves are the model's (log entry 1). -/
def Obligations.StepRunsTheDecodedCommand : Prop :=
  ∀ (s : State) (c : Word) (i : Instr) (rest : List HostMove),
    s.host = .access (.regWrite 0 c) :: rest → decode c = .ok i → step s = exec i { s with host := rest }

/-- R23, R136: when HOST makes no access, the step is SEQ's turn. Which agent moves is data (log entry 1). -/
def Obligations.StepIsSeqsTurnWhenHostPauses : Prop :=
  ∀ s : State,
    (s.host = [] → step s = seqTurn s) ∧
    (∀ rest, s.host = .pause :: rest → step s = seqTurn { s with host := rest })

/-- R74: exactly the words 1 to 6 are legal; an illegal word raises `IllegalCommand` in IDLE and DONE and changes
nothing in FAILED. -/
def Obligations.IllegalWordsFailTheBlock : Prop :=
  ∀ (s : State) (c : Word) (rest : List HostMove),
    s.host = .access (.regWrite 0 c) :: rest →
    ((∃ i, decode c = .ok i) ↔ 1 ≤ c.toNat ∧ c.toNat ≤ 6) ∧
    ((c.toNat = 0 ∨ 7 ≤ c.toNat) →
      (s.phase = .idle ∨ s.phase = .done →
        step s = .next { s with host := rest, phase := .failed, err := .illegalCommand, chain := false }) ∧
      (s.phase = .failed → step s = .next { s with host := rest }))

/-- R146: an access has a step exactly where the table gives it a meaning, and is refused everywhere else. -/
def Obligations.AccessHasAStepExactlyWhereItHasAMeaning : Prop :=
  ∀ (s : State) (a : HostAction) (rest : List HostMove), s.host = .access a :: rest →
    (a.hasMeaning s → ∃ t, step s = .next t) ∧ (¬a.hasMeaning s → ∃ r, step s = .refused r)

/-- R141: RegRead returns the register and changes nothing. The value HOST receives is recorded in the model's own
field `received` (log entry 4). -/
def Obligations.RegReadReturnsTheRegister : Prop :=
  ∀ (s : State) (rest : List HostMove),
    (∀ p ∈ [(0, Reg.cmd, 0#32), (1, .status, s.status)],
      s.host = .access (.regRead p.1) :: rest →
        step s = .next { s with host := rest, received := .reg p.2.1 p.2.2 :: s.received }) ∧
    (∀ p ∈ [(2, Reg.bits, s.bits), (3, .window, s.window), (4, .len, s.len), (5, .rlen, s.rlen), (6, .olen, s.olen)],
      s.host = .access (.regRead p.1) :: rest →
        (s.busy = false →
          step s = .next { s with host := rest, received := .reg p.2.1 p.2.2 :: s.received }) ∧
        (s.busy = true → step s = .refused .accessWhileBusy))

/-- R142: RegWrite issues a command on CMD, stores whole and unchecked in BITS, WINDOW, LEN and RLEN, is ignored on
STATUS and OLEN, and has a meaning only when not BUSY. -/
def Obligations.RegWriteStoresWholeAndUnchecked : Prop :=
  ∀ (s : State) (v : Word) (rest : List HostMove),
    (∀ i, s.host = .access (.regWrite 0 v) :: rest → decode v = .ok i →
      step s = exec i { s with host := rest }) ∧
    (s.busy = false →
      ∀ p ∈ [(1, s), (2, { s with bits := v }), (3, { s with window := v }), (4, { s with len := v }),
          (5, { s with rlen := v }), (6, s)],
        s.host = .access (.regWrite p.1 v) :: rest → step s = .next { p.2 with host := rest }) ∧
    (s.busy = true → ∀ r, r ≤ 6 → s.host = .access (.regWrite r v) :: rest →
      step s = .refused .accessWhileBusy)

/-- R143: BufRead returns the element and changes nothing; it has a meaning only when not BUSY. The value HOST
receives is recorded in `received` (log entry 4). -/
def Obligations.BufReadReturnsTheElement : Prop :=
  ∀ (s : State) (b : Buf) (i : Nat) (rest : List HostMove),
    i < b.capacity → s.host = .access (.bufRead b i) :: rest →
      (s.busy = false → step s =
        .next { s with host := rest, received := .elem b (s.readElem b i) :: s.received }) ∧
      (s.busy = true → step s = .refused .accessWhileBusy)

/-- R144: BufWrite stores one element of SRC, Q, RED or RST and nothing else, is ignored on OUT, and has a meaning
only when not BUSY. -/
def Obligations.BufWriteStoresOneElement : Prop :=
  ∀ (s : State) (b : Buf) (i : Nat) (v : BitVec b.width) (rest : List HostMove),
    i < b.capacity → s.host = .access (.bufWrite b i v) :: rest →
      (s.busy = false → b ≠ .out → ∃ t, step s = .next t ∧ t.readElem b i = v ∧
        (∀ c j, ¬(c = b ∧ j = i) → t.readElem c j = s.readElem c j) ∧
        t.phase = s.phase ∧ t.err = s.err ∧ t.chain = s.chain ∧ SameOperands s t ∧ t.rlen = s.rlen ∧
        t.olen = s.olen ∧ t.draw = s.draw ∧ t.host = rest ∧ t.received = s.received) ∧
      (s.busy = false → b = .out → step s = .next { s with host := rest }) ∧
      (s.busy = true → step s = .refused .accessWhileBusy)

/-- R22, its list of values being the spec's own inference: STATUS is a view of PHASE and ERR, field by field, and
reads as one of the eleven values in every state that meets the invariant. -/
def Obligations.StatusIsAViewOfPhaseAndErr : Prop :=
  ∀ s : State,
    s.status.extractLsb' 0 3 = BitVec.ofNat 3 s.phase.code ∧
    (s.status.getLsbD 3 = true ↔
      s.phase = .quantizing ∨ s.phase = .reducing ∨ s.phase = .restoring ∨ s.phase = .clamping) ∧
    (s.status.getLsbD 4 = true ↔ s.phase = .done) ∧ (s.status.getLsbD 5 = true ↔ s.phase = .failed) ∧
    s.status.extractLsb' 6 2 = 0#2 ∧ s.status.extractLsb' 8 4 = BitVec.ofNat 4 s.err.code ∧
    s.status.extractLsb' 12 20 = 0#20 ∧
    (s.Inv → s.status ∈ [0x00000000#32, 0x00000009#32, 0x0000000A#32, 0x0000000B#32, 0x0000000C#32, 0x00000015#32,
      0x00000126#32, 0x00000226#32, 0x00000326#32, 0x00000426#32, 0x00000526#32])

/-- R170, R40: Reset, in any phase, gives the reset values. That the elements then hold the next draw of unwritten
values is the model's rendering of 'unspecified' (R42; log entry 2). -/
def Obligations.ResetWorksInEveryPhase : Prop :=
  ∀ (s : State) (rest : List HostMove), s.host = .access .reset :: rest →
    ∃ t, step s = .next t ∧ t.phase = .idle ∧ t.err = .none ∧ t.chain = false ∧ t.status = 0#32 ∧
      t.bits = 8#32 ∧ t.window = 3#32 ∧ t.len = 0#32 ∧ t.rlen = 0#32 ∧ t.olen = 0#32 ∧
      t.host = rest ∧ t.received = s.received ∧
      ∀ b i, t.readElem b i = Config.unwritten (s.draw + 1) b.width b.number i

/-- R40: the registers of the state after reset. -/
def Obligations.ResetStateHoldsTheResetValues : Prop :=
  State.reset.phase = .idle ∧ State.reset.err = .none ∧ State.reset.chain = false ∧ State.reset.status = 0#32 ∧
  State.reset.bits = 8#32 ∧ State.reset.window = 3#32 ∧ State.reset.len = 0#32 ∧ State.reset.rlen = 0#32 ∧
  State.reset.olen = 0#32

/-! ### The quantizer -/

/-- R90: the quotient is rounded toward minus infinity, then clamped. -/
def Obligations.QuantizeRoundsDownThenClamps : Prop :=
  ∀ (v : Int) (b : Nat), 1 ≤ b → b ≤ 16 →
    ∃ d : Int, d * 2 ^ (16 - b) ≤ v ∧ v < (d + 1) * 2 ^ (16 - b) ∧
      quantizeOne v b =
        if d < -(2 ^ (b - 1)) then -(2 ^ (b - 1)) else if d > 2 ^ (b - 1) - 1 then 2 ^ (b - 1) - 1 else d

/-- R91: length and order are preserved, and each element depends on its own sample only. -/
def Obligations.QuantizeKeepsLengthAndOrder : Prop :=
  ∀ (vs : List Int) (b : Nat), 1 ≤ b → b ≤ 16 →
    (quantize vs b).length = vs.length ∧ ∀ i : Nat, (quantize vs b)[i]? = vs[i]?.map fun v => quantizeOne v b

/-- R93: every quantized value lies in [min_val, max_val]. -/
def Obligations.QuantizedValueIsInRange : Prop :=
  ∀ (v : Int) (b : Nat), 1 ≤ b → b ≤ 16 →
    -(2 ^ (b - 1)) ≤ quantizeOne v b ∧ quantizeOne v b ≤ 2 ^ (b - 1) - 1

/-- R94, which the spec marks as its own inference: on 16-bit input the clamp never changes the value, and the result
is the arithmetic right shift of the 16-bit pattern. -/
def Obligations.QuantizeIsAShiftOnSixteenBits : Prop :=
  ∀ (v : Int) (b : Nat), 1 ≤ b → b ≤ 16 → InS16 v →
    quantizeOne v b = floordiv v (2 ^ (16 - b)) ∧
    quantizeOne v b = ((BitVec.ofInt 16 v).sshiftRight (16 - b)).toInt

/-- R95 (a) to (e), which the spec marks as its own inference. -/
def Obligations.QuantizeFacts : Prop :=
  (∀ (v u : Int) (b : Nat), 1 ≤ b → b ≤ 16 → v ≤ u → quantizeOne v b ≤ quantizeOne u b) ∧
  (∀ v : Int, InS16 v → quantizeOne v 16 = v) ∧
  (∀ v : Int, InS16 v → quantizeOne v 1 = if v < 0 then -1 else 0) ∧
  (∀ b : Nat, 1 ≤ b → b ≤ 16 → quantizeOne 0 b = 0 ∧ quantizeOne (-1) b = -1) ∧
  (∀ (v : Int) (b : Nat), 1 ≤ b → b ≤ 16 → InS16 v →
    quantizeOne v b * 2 ^ (16 - b) = v - floormod v (2 ^ (16 - b)) ∧
    quantizeOne v b * 2 ^ (16 - b) ≤ v ∧ v - quantizeOne v b * 2 ^ (16 - b) < 2 ^ (16 - b))

/-- R92: the word, the stage and, at rest, the command. With legal operands it is accepted, SEQ's one step writes
Q[0..n) with the quantized samples and nothing else, and PHASE is DONE; else it fails with the first error and
changes nothing else. -/
def Obligations.QuantCommand : Prop :=
  decode 0x00000001#32 = .ok .quant ∧
  (∀ s : State, s.phase = .quantizing → (1 ≤ s.depth ∧ s.depth ≤ 16) → s.count ≤ Config.nmax →
    ∃ u, seqTurn s = .next u ∧ u.phase = (if s.chain then .reducing else .done) ∧
      u.memRead .q 0 s.count = quantize (s.memRead .src 0 s.count) s.depth) ∧
  ∀ s : State, (s.phase = .idle ∨ s.phase = .done) →
    ((1 ≤ s.depth ∧ s.depth ≤ 16) → s.count ≤ Config.nmax →
      ∃ t u, exec .quant s = .next t ∧ t = { s with phase := .quantizing, chain := false } ∧
        seqTurn t = .next u ∧ u.phase = .done ∧ u.chain = false ∧ u.err = s.err ∧
        u.memRead .q 0 s.count = quantize (s.memRead .src 0 s.count) s.depth ∧
        SameElementsBut .q s.count s u ∧ SameOperands s u ∧ u.rlen = s.rlen ∧ u.olen = s.olen ∧ SameOutside s u) ∧
    (¬(1 ≤ s.depth ∧ s.depth ≤ 16) →
      exec .quant s = .next { s with phase := .failed, err := .badBits, chain := false }) ∧
    ((1 ≤ s.depth ∧ s.depth ≤ 16) → Config.nmax < s.count →
      exec .quant s = .next { s with phase := .failed, err := .badLength, chain := false })

/-! ### The downsampler -/

/-- R100: the global map counts the indices that hold a value, is positive exactly on the values that occur, sums to
the length, and does not depend on the order of the pass. -/
def Obligations.FrequencyMapCountsTheWholeSequence : Prop :=
  (∀ (q : List Int) (v : Int),
    freq q v = ((List.range q.length).filter fun i => decide (q[i]? = some v)).length ∧
    (1 ≤ freq q v ↔ v ∈ q) ∧ (v ∉ q → freq q v = 0)) ∧
  (∀ q : List Int, (q.dedup.map (freq q)).sum = q.length) ∧
  (∀ (q q' : List Int) (v : Int), q.Perm q' → freq q v = freq q' v)

/-- R101: the windows are consecutive, non-empty, full but for the last, and every index is in exactly one. -/
def Obligations.WindowsPartitionTheSequence : Prop :=
  ∀ (q : List Int) (w : Nat), 1 ≤ w →
    (∀ k, k < ceildiv q.length w →
      windowLo k w < windowHi k w q.length ∧
      (windowAt q w k).length = windowHi k w q.length - windowLo k w ∧
      (∀ j, j < windowHi k w q.length - windowLo k w → (windowAt q w k)[j]? = q[windowLo k w + j]?)) ∧
    (∀ k, k + 1 < ceildiv q.length w → (windowAt q w k).length = w) ∧
    (∀ k, k + 1 = ceildiv q.length w →
      (windowAt q w k).length = q.length - k * w ∧ 1 ≤ (windowAt q w k).length ∧ (windowAt q w k).length ≤ w) ∧
    (∀ i, i < q.length → ∃ k, (k < ceildiv q.length w ∧ windowLo k w ≤ i ∧ i < windowHi k w q.length) ∧
      ∀ k', k' < ceildiv q.length w ∧ windowLo k' w ≤ i ∧ i < windowHi k' w q.length → k' = k) ∧
    (q.length = 0 → ceildiv q.length w = 0)

/-- R102: the representative is the element at the least index at which the count is the window's maximum. -/
def Obligations.RepresentativeIsTheFirstOfHighestCount : Prop :=
  ∀ (f : Int → Nat) (win : List Int), win ≠ [] →
    ∃ (j : Nat) (hj : j < win.length), representative f win = some win[j] ∧
      (∀ u ∈ win, f u ≤ f win[j]) ∧ (∀ (i : Nat) (hi : i < win.length), i < j → f win[i] < f win[j])

/-- R103: one representative per window, chosen by the global counts, in window order. -/
def Obligations.ReduceKeepsOnePerWindow : Prop :=
  ∀ (q : List Int) (w : Nat), 1 ≤ w →
    (reduce q w).length = ceildiv q.length w ∧
    ∀ k, k < ceildiv q.length w → (reduce q w)[k]? = representative (freq q) (windowAt q w k)

/-- R105 (a) to (f), which the spec marks as its own inference. -/
def Obligations.ReduceFacts : Prop :=
  (∀ (q : List Int) (w k : Nat), 1 ≤ w → k < ceildiv q.length w →
    ∃ v ∈ windowAt q w k, v ∈ q ∧ (reduce q w)[k]? = some v) ∧
  (∀ q : List Int, reduce q 1 = q) ∧
  (∀ (q : List Int) (w : Nat), 1 ≤ q.length → q.length ≤ w →
    ∃ v ∈ q, reduce q w = [v] ∧
      ∀ u ∈ q, freq q u ≤ freq q v ∧ (freq q u = freq q v → q.idxOf v ≤ q.idxOf u)) ∧
  (∀ (q : List Int) (w k : Nat) (v : Int), 1 ≤ w → k < ceildiv q.length w → v ∈ windowAt q w k →
    (∀ u ∈ windowAt q w k, u ≠ v → freq q u < freq q v) → (reduce q w)[k]? = some v) ∧
  (∃ (q q' : List Int) (w k : Nat), q.length = q'.length ∧ windowAt q w k = windowAt q' w k ∧
    (reduce q w)[k]? ≠ (reduce q' w)[k]?) ∧
  (∀ (q : List Int) (w k : Nat), 1 ≤ w → k < ceildiv q.length w →
    (∀ u ∈ windowAt q w k, ∀ v ∈ windowAt q w k, freq q u = freq q v) →
    (reduce q w)[k]? = (windowAt q w k).head?)

/-- R104: the word, the stage and, at rest, the command. With legal operands it is accepted, SEQ's one step writes
RED[0..m) with the reduced sequence and RLEN with m = ceildiv(n, w) and nothing else, and PHASE is DONE; else it
fails. -/
def Obligations.ReduceCommand : Prop :=
  decode 0x00000002#32 = .ok .reduce ∧
  (∀ s : State, s.phase = .reducing → 1 ≤ s.windowSize → s.count ≤ Config.nmax →
    ∃ u, seqTurn s = .next u ∧ u.phase = (if s.chain then .restoring else .done) ∧
      u.memRead .red 0 (ceildiv s.count s.windowSize) = reduce (s.memRead .q 0 s.count) s.windowSize ∧
      u.rlen.toNat = ceildiv s.count s.windowSize) ∧
  ∀ s : State, (s.phase = .idle ∨ s.phase = .done) →
    (1 ≤ s.windowSize → s.count ≤ Config.nmax →
      ∃ t u, exec .reduce s = .next t ∧ t = { s with phase := .reducing, chain := false } ∧
        seqTurn t = .next u ∧ u.phase = .done ∧ u.chain = false ∧ u.err = s.err ∧
        u.memRead .red 0 (ceildiv s.count s.windowSize) = reduce (s.memRead .q 0 s.count) s.windowSize ∧
        u.rlen.toNat = ceildiv s.count s.windowSize ∧
        SameElementsBut .red (ceildiv s.count s.windowSize) s u ∧ SameOperands s u ∧ u.olen = s.olen ∧
        SameOutside s u) ∧
    (¬1 ≤ s.windowSize →
      exec .reduce s = .next { s with phase := .failed, err := .badWindow, chain := false }) ∧
    (1 ≤ s.windowSize → Config.nmax < s.count →
      exec .reduce s = .next { s with phase := .failed, err := .badLength, chain := false })

/-- R33: what REDUCE computes depends on WINDOW, LEN and Q[0..n) alone: no count survives from an earlier REDUCE and
no element of Q beyond n is counted. -/
def Obligations.ReduceDependsOnItsInputsAlone : Prop :=
  ∀ s t : State, s.phase = .reducing → t.phase = .reducing → 1 ≤ s.windowSize → s.count ≤ Config.nmax →
    t.window = s.window → t.len = s.len → (∀ i, i < s.count → t.readElem .q i = s.readElem .q i) →
      ∃ s' t', seqTurn s = .next s' ∧ seqTurn t = .next t' ∧ t'.rlen = s'.rlen ∧
        ∀ k, k < ceildiv s.count s.windowSize → t'.readElem .red k = s'.readElem .red k

/-! ### The upsampler -/

/-- R111 to R113: the expansion, the closed form, which the spec marks as its own inference, and that it is the
expansion forced to the length. -/
def Obligations.RestoreIsExpansionForcedToLength : Prop :=
  ∀ (r : List Int) (l b w : Nat), 1 ≤ b → b ≤ 16 → 1 ≤ w →
    (expand r b w).length = r.length * w ∧
    (∀ (i : Nat) (h : idiv i w < r.length), (expand r b w)[i]? = some (rescale r[idiv i w] b)) ∧
    (∀ (i : Nat) (h : idiv i w < r.length), i < l → (restore r l b w)[i]? = some (rescale r[idiv i w] b)) ∧
    (∀ i, r.length ≤ idiv i w → i < l → (restore r l b w)[i]? = some 0) ∧
    restore r l b w = forceLength (expand r b w) l

/-- R115: the restored sequence has exactly the original length. -/
def Obligations.RestoreHasExactlyTheLength : Prop :=
  (∀ (r : List Int) (l b w : Nat), 1 ≤ b → b ≤ 16 → 1 ≤ w → (restore r l b w).length = l) ∧
  (∀ (q : List Int) (b w : Nat), 1 ≤ b → b ≤ 16 → 1 ≤ w →
    (restore (reduce q w) q.length b w).length = q.length)

/-- R116, which the spec marks as its own inference: (a), (b), and that a value outside 16 bits can result at a depth
the spec defines (c). -/
def Obligations.RestoredValuesAreBounded : Prop :=
  (∀ (r : List Int) (l b w : Nat), 1 ≤ b → b ≤ 16 → 1 ≤ w → (∀ v ∈ r, InS16 v) →
    ∀ x ∈ restore r l b w, -(2 ^ 30) ≤ x ∧ x ≤ 2 ^ 30 ∧ InS32 x) ∧
  rescale (-32768) 1 = -1073741824 ∧ rescale 32767 1 = 1073709056 ∧
  (∀ (r : List Int) (l b w : Nat), 1 ≤ b → b ≤ 16 → 1 ≤ w →
    (∀ v ∈ r, -(2 ^ (b - 1)) ≤ v ∧ v ≤ 2 ^ (b - 1) - 1) →
    ∀ x ∈ restore r l b w, -32768 ≤ x ∧ x ≤ 32768 - 2 ^ (16 - b) ∧ (2 ^ (16 - b) : Int) ∣ x) ∧
  (∃ (r : List Int) (b : Nat), 1 ≤ b ∧ b ≤ 16 ∧ (∀ v ∈ r, InS16 v) ∧ ∃ x ∈ restore r 1 b 1, ¬InS16 x)

/-- R117, which the spec marks as its own inference: after `reduce`, no padding; truncation by fewer than w, exactly
when w does not divide n; every position of a window holds the rescaled representative. -/
def Obligations.RestoreAfterReduceNeverPads : Prop :=
  ∀ (q : List Int) (b w : Nat), 1 ≤ b → b ≤ 16 → 1 ≤ w →
    (∀ i, i < q.length → idiv i w < (reduce q w).length) ∧
    (expand (reduce q w) b w).length = ceildiv q.length w * w ∧
    q.length ≤ (expand (reduce q w) b w).length ∧ (expand (reduce q w) b w).length < q.length + w ∧
    (q.length < (expand (reduce q w) b w).length ↔ ¬w ∣ q.length) ∧
    (∀ i, i < q.length →
      (restore (reduce q w) q.length b w)[i]? = (reduce q w)[idiv i w]?.map fun v => rescale v b)

/-- R114: the word, the stage (which does not check RLEN) and, at rest, the command. With legal operands it is
accepted, SEQ's one step writes RST[0..L) with the rescaled, repeated and zero-padded samples and nothing else,
and PHASE is DONE; else it fails with the first error. -/
def Obligations.RestoreCommand : Prop :=
  decode 0x00000003#32 = .ok .restore ∧
  (∀ s : State, s.phase = .restoring → (1 ≤ s.depth ∧ s.depth ≤ 16) → 1 ≤ s.windowSize → s.count ≤ Config.nmax →
    ∃ u, seqTurn s = .next u ∧ u.phase = (if s.chain then .clamping else .done) ∧
      ∀ i, i < s.count → u.readInt .rst i =
        if i / s.windowSize < s.reducedCount then s.readInt .red (i / s.windowSize) * 2 ^ (16 - s.depth) else 0) ∧
  ∀ s : State, (s.phase = .idle ∨ s.phase = .done) →
    ((1 ≤ s.depth ∧ s.depth ≤ 16) → 1 ≤ s.windowSize → s.count ≤ Config.nmax → s.reducedCount ≤ Config.nmax →
      ∃ t u, exec .restore s = .next t ∧ t = { s with phase := .restoring, chain := false } ∧
        seqTurn t = .next u ∧ u.phase = .done ∧ u.chain = false ∧ u.err = s.err ∧
        (∀ i, i < s.count → u.readInt .rst i =
          if i / s.windowSize < s.reducedCount then s.readInt .red (i / s.windowSize) * 2 ^ (16 - s.depth) else 0) ∧
        SameElementsBut .rst s.count s u ∧ SameOperands s u ∧ u.rlen = s.rlen ∧ u.olen = s.olen ∧
        SameOutside s u) ∧
    (¬(1 ≤ s.depth ∧ s.depth ≤ 16) →
      exec .restore s = .next { s with phase := .failed, err := .badBits, chain := false }) ∧
    ((1 ≤ s.depth ∧ s.depth ≤ 16) → ¬1 ≤ s.windowSize →
      exec .restore s = .next { s with phase := .failed, err := .badWindow, chain := false }) ∧
    ((1 ≤ s.depth ∧ s.depth ≤ 16) → 1 ≤ s.windowSize → Config.nmax < s.count →
      exec .restore s = .next { s with phase := .failed, err := .badLength, chain := false }) ∧
    ((1 ≤ s.depth ∧ s.depth ≤ 16) → 1 ≤ s.windowSize → s.count ≤ Config.nmax → Config.nmax < s.reducedCount →
      exec .restore s = .next { s with phase := .failed, err := .badReducedLength, chain := false })

/-! ### The packer -/

/-- R120: `clamp16` clips, is the identity on S16 and is idempotent. -/
def Obligations.ClampSixteenClips : Prop :=
  ∀ v : Int, clamp16 v = (if v < -32768 then -32768 else if v > 32767 then 32767 else v) ∧
    (InS16 v → clamp16 v = v) ∧ clamp16 (clamp16 v) = clamp16 v

/-- R121: the two bytes of the two's-complement pattern, the least significant first. That the signed code is two's
complement the spec takes from general knowledge (log entry 11). -/
def Obligations.EncodeIsLittleEndian : Prop :=
  ∀ v : Int, InS16 v →
    (encode16 v).map (fun p => (p.toNat : Int)) =
      [(if v ≥ 0 then v else v + 65536) % 256, (if v ≥ 0 then v else v + 65536) / 256]

/-- R123: packing is the clip, then the encoder, never a failure, two bytes per sample. -/
def Obligations.ClampAndPackIsClipThenEncode : Prop :=
  ∀ t : List Int, encodeSamples (t.map clamp16) = .ok (clampAndPack t) ∧
    (clampAndPack t).length = 2 * t.length

/-- R126, which the spec marks as its own inference: `PackError` is unreachable: the encoder never fails after the
clip, and no step makes ERR 6. -/
def Obligations.PackErrorIsNeverRaised : Prop :=
  (∀ (t : List Int) (e : ErrCode), encodeSamples (t.map clamp16) ≠ .error e) ∧
  (∀ s t : State, step s = .next t → s.err ≠ .packError → t.err ≠ .packError)

/-- Every pair of bytes that PACK writes decodes to a value in the 16-bit range (R127), namely to the clipped sample:
the clamped form of R129, which the spec marks as its own inference. -/
def Obligations.PackedPairsDecodeToTheClippedSample : Prop :=
  ∀ s : State, s.phase = .clamping → s.count ≤ Config.nmax →
    ∃ u, seqTurn s = .next u ∧ ∀ i, i < s.count →
      decodePairs [u.outByte (2 * i), u.outByte (2 * i + 1)] = [clamp16 (s.readInt .rst i)] ∧
      InS16 (clamp16 (s.readInt .rst i))

/-- R129, whose clamped form the spec marks as its own inference: decoding what was encoded gives the samples back;
for any samples, the clipped ones. -/
def Obligations.PackRoundTrip : Prop :=
  (∀ (t : List Int) (bytes : List Byte), encodeSamples t = .ok bytes → decodeSamples bytes 2 = .ok t) ∧
  (∀ t : List Int, (∀ v ∈ t, InS16 v) → ∃ bytes, encodeSamples t = .ok bytes ∧ decodeSamples bytes 2 = .ok t) ∧
  (∀ t : List Int, decodeSamples (clampAndPack t) 2 = .ok (t.map clamp16))

/-- R128: the reference decoder, where the document states it (an even number of bytes for width 2). -/
def Obligations.DecodeSamplesByWidth : Prop :=
  ∀ bytes : List Byte,
    decodeSamples bytes 1 = .ok (bytes.map fun p => (p.toNat : Int) - 128) ∧
    (bytes.length % 2 = 0 → ∃ t, decodeSamples bytes 2 = .ok t ∧ t.length = bytes.length / 2 ∧
      ∀ (i : Nat) (h : 2 * i + 1 < bytes.length),
        t[i]? = some (BitVec.ofNat 16 (bytes[2 * i].toNat + 256 * bytes[2 * i + 1].toNat)).toInt) ∧
    (∀ width, width ≠ 1 → width ≠ 2 → decodeSamples bytes width = .error .unsupportedSampleWidth)

/-- R124: the word, the stage and, at rest, the command. With a legal LEN it is accepted, SEQ's one step writes the
two bytes of every clipped sample to OUT and 2n to OLEN and nothing else, and PHASE is DONE; else it fails. -/
def Obligations.PackCommand : Prop :=
  decode 0x00000004#32 = .ok .pack ∧
  (∀ s : State, s.phase = .clamping → s.count ≤ Config.nmax →
    ∃ u, seqTurn s = .next u ∧ u.phase = .done ∧ u.chain = false ∧ u.olen.toNat = 2 * s.count ∧
      ∀ i, i < s.count →
        u.readInt .out (2 * i) = clamp16 (s.readInt .rst i) % 256 ∧
        u.readInt .out (2 * i + 1) = clamp16 (s.readInt .rst i) % 65536 / 256) ∧
  ∀ s : State, (s.phase = .idle ∨ s.phase = .done) →
    (s.count ≤ Config.nmax →
      ∃ t u, exec .pack s = .next t ∧ t = { s with phase := .clamping, chain := false } ∧
        seqTurn t = .next u ∧ u.phase = .done ∧ u.chain = false ∧ u.err = s.err ∧
        (∀ i, i < s.count →
          u.readInt .out (2 * i) = clamp16 (s.readInt .rst i) % 256 ∧
          u.readInt .out (2 * i + 1) = clamp16 (s.readInt .rst i) % 65536 / 256) ∧
        u.olen.toNat = 2 * s.count ∧
        SameElementsBut .out (2 * s.count) s u ∧ SameOperands s u ∧ u.rlen = s.rlen ∧ SameOutside s u) ∧
    (Config.nmax < s.count →
      exec .pack s = .next { s with phase := .failed, err := .badLength, chain := false })

/-! ### RUN and CLR -/

/-- R137: the word and, at rest, the command. With legal operands it is accepted, SEQ's four steps leave every stage's
result in its buffer and PHASE at DONE, STATUS showing the stages in turn; else it fails with the first error. -/
def Obligations.RunCommand : Prop :=
  decode 0x00000005#32 = .ok .run ∧
  ∀ s : State, (s.phase = .idle ∨ s.phase = .done) →
    ((1 ≤ s.depth ∧ s.depth ≤ 16) → 1 ≤ s.windowSize → s.count ≤ Config.nmax →
      ∃ t u₁ u₂ u₃ u, exec .run s = .next t ∧ t = { s with phase := .quantizing, chain := true } ∧
        seqTurn t = .next u₁ ∧ seqTurn u₁ = .next u₂ ∧ seqTurn u₂ = .next u₃ ∧ seqTurn u₃ = .next u ∧
        (s.err = .none → t.status = 0x09#32 ∧ u₁.status = 0x0A#32 ∧ u₂.status = 0x0B#32 ∧
          u₃.status = 0x0C#32 ∧ u.status = 0x15#32) ∧
        u.phase = .done ∧ u.chain = false ∧ u.err = s.err ∧
        u.memRead .q 0 s.count = quantize (s.memRead .src 0 s.count) s.depth ∧
        u.memRead .red 0 (ceildiv s.count s.windowSize) = reduce (u.memRead .q 0 s.count) s.windowSize ∧
        u.rlen.toNat = ceildiv s.count s.windowSize ∧
        u.memRead .rst 0 s.count =
          restore (u.memRead .red 0 (ceildiv s.count s.windowSize)) s.count s.depth s.windowSize ∧
        u.memRead .out 0 (2 * s.count) = (clampAndPack (u.memRead .rst 0 s.count)).map (fun p => (p.toNat : Int)) ∧
        u.olen.toNat = 2 * s.count ∧
        (∀ i, u.readElem .src i = s.readElem .src i) ∧
        (∀ i, s.count ≤ i → u.readElem .q i = s.readElem .q i ∧ u.readElem .rst i = s.readElem .rst i) ∧
        (∀ i, ceildiv s.count s.windowSize ≤ i → u.readElem .red i = s.readElem .red i) ∧
        (∀ i, 2 * s.count ≤ i → u.readElem .out i = s.readElem .out i) ∧
        SameOperands s u ∧ SameOutside s u) ∧
    (¬(1 ≤ s.depth ∧ s.depth ≤ 16) →
      exec .run s = .next { s with phase := .failed, err := .badBits, chain := false }) ∧
    ((1 ≤ s.depth ∧ s.depth ≤ 16) → ¬1 ≤ s.windowSize →
      exec .run s = .next { s with phase := .failed, err := .badWindow, chain := false }) ∧
    ((1 ≤ s.depth ∧ s.depth ≤ 16) → 1 ≤ s.windowSize → Config.nmax < s.count →
      exec .run s = .next { s with phase := .failed, err := .badLength, chain := false })

/-- R139 (a), which the spec marks as its own inference: an accepted RUN ends in the very state that the four commands
issued one after another end in. -/
def Obligations.RunEqualsTheFourCommands : Prop :=
  ∀ s : State, (s.phase = .idle ∨ s.phase = .done) → (1 ≤ s.depth ∧ s.depth ≤ 16) → 1 ≤ s.windowSize →
    s.count ≤ Config.nmax →
    ∃ t a a' b b' c c' d u, exec .run s = .next t ∧ seqTurns 4 t = .next u ∧
      exec .quant s = .next a ∧ seqTurn a = .next a' ∧ exec .reduce a' = .next b ∧ seqTurn b = .next b' ∧
      exec .restore b' = .next c ∧ seqTurn c = .next c' ∧ exec .pack c' = .next d ∧ seqTurn d = .next u

/-- R139 (b), (c), which the spec marks as its own inference: after RUN every restored sample is a multiple of
2^(16−b) in the 16-bit range, the clip leaves it alone, and it is the rescaled quantization of a sample of its own
window. -/
def Obligations.RunNeverClips : Prop :=
  ∀ s : State, (s.phase = .idle ∨ s.phase = .done) → (1 ≤ s.depth ∧ s.depth ≤ 16) → 1 ≤ s.windowSize →
    s.count ≤ Config.nmax →
    ∃ t u, exec .run s = .next t ∧ seqTurns 4 t = .next u ∧
      ∀ i, i < s.count →
        u.readInt .rst i = u.readInt .red (i / s.windowSize) * 2 ^ (16 - s.depth) ∧
        -32768 ≤ u.readInt .rst i ∧ u.readInt .rst i ≤ 32768 - 2 ^ (16 - s.depth) ∧
        clamp16 (u.readInt .rst i) = u.readInt .rst i ∧
        [u.outByte (2 * i), u.outByte (2 * i + 1)] = encode16 (u.readInt .rst i) ∧
        ∃ j, j < s.count ∧ j / s.windowSize = i / s.windowSize ∧
          u.readInt .rst i = rescale (quantizeOne (s.readInt .src j) s.depth) s.depth

/-- R138: the word, and CLR in IDLE, DONE and FAILED: PHASE, ERR and CHAIN, nothing else; refused while BUSY. -/
def Obligations.ClrCommand : Prop :=
  decode 0x00000006#32 = .ok .clr ∧
  ∀ s : State,
    (s.phase = .idle ∨ s.phase = .done ∨ s.phase = .failed →
      exec .clr s = .next { s with phase := .idle, err := .none, chain := false } ∧
      ∀ t, exec .clr s = .next t → t.status = 0#32) ∧
    (s.phase = .idle → s.err = .none → s.chain = false → exec .clr s = .next s) ∧
    (s.busy = true → exec .clr s = .refused .accessWhileBusy)

/-! ### Errors -/

/-- R153, R154: which checks each command makes, in which order; the first that fails is reported. -/
def Obligations.ChecksAreMadeInOrder : Prop :=
  ∀ s : State, (s.phase = .idle ∨ s.phase = .done) →
    exec .quant s = .next
      (if ¬(1 ≤ s.depth ∧ s.depth ≤ 16) then s.raise .badBits
       else if ¬s.count ≤ Config.nmax then s.raise .badLength else s.start .quantizing false) ∧
    exec .reduce s = .next
      (if ¬1 ≤ s.windowSize then s.raise .badWindow
       else if ¬s.count ≤ Config.nmax then s.raise .badLength else s.start .reducing false) ∧
    exec .restore s = .next
      (if ¬(1 ≤ s.depth ∧ s.depth ≤ 16) then s.raise .badBits
       else if ¬1 ≤ s.windowSize then s.raise .badWindow
       else if ¬s.count ≤ Config.nmax then s.raise .badLength
       else if ¬s.reducedCount ≤ Config.nmax then s.raise .badReducedLength else s.start .restoring false) ∧
    exec .pack s = .next
      (if ¬s.count ≤ Config.nmax then s.raise .badLength else s.start .clamping false) ∧
    exec .run s = .next
      (if ¬(1 ≤ s.depth ∧ s.depth ≤ 16) then s.raise .badBits
       else if ¬1 ≤ s.windowSize then s.raise .badWindow
       else if ¬s.count ≤ Config.nmax then s.raise .badLength else s.start .quantizing true) ∧
    exec .clr s = .next s.clear

/-- R156: the failure entry writes ERR, CHAIN and PHASE and nothing else; STATUS is 0x26 + 256*code. -/
def Obligations.FailureEntryWritesPhaseErrChain : Prop :=
  ∀ (s : State) (e : ErrCode),
    s.raise e = { s with phase := .failed, err := e, chain := false } ∧
    (s.raise e).status.toNat = 0x26 + 256 * e.code

/-- R155: a command that fails has written nothing but PHASE, ERR and CHAIN, and an accepted one never fails later.
That the steps go on past DONE, where SEQ has no step, is the model's choice (log entry 19), as is that they are SEQ's
when HOST has no move (log entry 1). -/
def Obligations.FailuresArePrecise : Prop :=
  (∀ (s t : State) (c : Word) (rest : List HostMove), s.host = .access (.regWrite 0 c) :: rest →
    step s = .next t → t.phase = .failed →
      SameElements s t ∧ SameOperands s t ∧ t.rlen = s.rlen ∧ t.olen = s.olen ∧ t.draw = s.draw ∧
      t.host = rest ∧ t.received = s.received) ∧
  (∀ s : State, s.Inv → s.busy = true → s.host = [] → ∀ k, ∃ t, core.run k s = .next t ∧ t.phase ≠ .failed)

/-- R157: in FAILED every word but CLR is ignored, and HOST can still read and write registers and buffers. R157 says
that SEQ has no step; that its turn then leaves the state as it is, is the model's choice (log entry 19). -/
def Obligations.FailedIgnoresEveryWordButClr : Prop :=
  ∀ s : State, s.phase = .failed →
    (∀ (c : Word) (rest : List HostMove), s.host = .access (.regWrite 0 c) :: rest → c ≠ 6#32 →
      step s = .next { s with host := rest }) ∧
    seqTurn s = .next s ∧
    (∀ (a : HostAction) (rest : List HostMove), a.wellFormed = true → s.host = .access a :: rest →
      ∃ t, step s = .next t)

/-- R158, R159: FAILED is left only by CLR or reset, to IDLE with ERR NONE; until then ERR keeps the code of the first
failure. -/
def Obligations.FailedIsLeftOnlyByClrOrReset : Prop :=
  ∀ s t : State, step s = .next t → s.phase = .failed →
    (t.phase = .failed ∧ t.err = s.err) ∨
    ((∃ rest, s.host = .access (.regWrite 0 6#32) :: rest ∨ s.host = .access .reset :: rest) ∧
      t.phase = .idle ∧ t.err = .none)

/-- R151, R136: FAILED is entered only at a CMD write, from IDLE or DONE: no stage raises an error. -/
def Obligations.FailedIsEnteredOnlyAtACommandWrite : Prop :=
  ∀ s t : State, step s = .next t → s.phase ≠ .failed → t.phase = .failed →
    (s.phase = .idle ∨ s.phase = .done) ∧ ∃ c rest, s.host = .access (.regWrite 0 c) :: rest

/-! ### The whole machine -/

/-- In every state that meets the invariant SEQ's turn answers a next state, and PHASE and CHAIN advance as the table
of R136 says. That no stage can fail R136 marks as its own inference. SEQ has a step exactly when BUSY; that its turn
at rest leaves the state as it is, is the model's choice (log entry 19). -/
def Obligations.StagesAdvancePhaseAndNeverFail : Prop :=
  ∀ s : State, s.Inv → ∃ t, seqTurn s = .next t ∧
    (s.busy = false → t = s) ∧
    (s.phase = .quantizing → t.phase = (if s.chain then .reducing else .done) ∧ t.chain = s.chain) ∧
    (s.phase = .reducing → t.phase = (if s.chain then .restoring else .done) ∧ t.chain = s.chain) ∧
    (s.phase = .restoring → t.phase = (if s.chain then .clamping else .done) ∧ t.chain = s.chain) ∧
    (s.phase = .clamping → t.phase = .done ∧ t.chain = false)

/-- R31: OLEN changes only when PACK writes it (or at reset), and then to 2*LEN. -/
def Obligations.OnlyPackWritesOlen : Prop :=
  (∀ s t : State, step s = .next t → t.olen ≠ s.olen →
    (∃ rest, s.host = .access .reset :: rest) ∨ (s.phase = .clamping ∧ t.olen.toNat = 2 * s.count)) ∧
  (∀ s : State, s.phase = .clamping → s.count ≤ Config.nmax →
    ∃ t, seqTurn s = .next t ∧ t.olen.toNat = 2 * s.count)

/-- R30: who writes each buffer: HOST one element of SRC, Q, RED or RST, QUANT Q, REDUCE RED, RESTORE RST, PACK OUT,
and reset all. -/
def Obligations.EachBufferHasItsWriters : Prop :=
  ∀ (s t : State) (b : Buf) (i : Nat), step s = .next t → t.readElem b i ≠ s.readElem b i →
    (∃ rest, s.host = .access .reset :: rest) ∨
    (b ≠ .out ∧ ∃ v rest, s.host = .access (.bufWrite b i v) :: rest ∧ t.readElem b i = v) ∨
    (b = .q ∧ s.phase = .quantizing ∧ i < s.count) ∨
    (b = .red ∧ s.phase = .reducing ∧ i < ceildiv s.count s.windowSize) ∨
    (b = .rst ∧ s.phase = .restoring ∧ i < s.count) ∨
    (b = .out ∧ s.phase = .clamping ∧ i < 2 * s.count)

/-- R26 to R29: who writes BITS, WINDOW, LEN and RLEN: HOST, reset, and for RLEN the stage REDUCING. -/
def Obligations.OperandRegistersHaveTheirWriters : Prop :=
  ∀ s t : State, step s = .next t → (∀ rest, s.host ≠ .access .reset :: rest) →
    (t.bits ≠ s.bits → ∃ rest, s.host = .access (.regWrite 2 t.bits) :: rest) ∧
    (t.window ≠ s.window → ∃ rest, s.host = .access (.regWrite 3 t.window) :: rest) ∧
    (t.len ≠ s.len → ∃ rest, s.host = .access (.regWrite 4 t.len) :: rest) ∧
    (t.rlen ≠ s.rlen → (∃ rest, s.host = .access (.regWrite 5 t.rlen) :: rest) ∨
      (s.phase = .reducing ∧ t.rlen.toNat = ceildiv s.count s.windowSize))

/-- R34 (a) to (f), which the spec marks as its own inference: everything an operation writes fits where it is
written, exactly. -/
def Obligations.EveryResultFitsItsBuffer : Prop :=
  ∀ s : State, (1 ≤ s.depth ∧ s.depth ≤ 16) → 1 ≤ s.windowSize → s.count ≤ Config.nmax →
    (∀ v ∈ quantize (s.memRead .src 0 s.count) s.depth,
      -(2 ^ (s.depth - 1)) ≤ v ∧ v ≤ 2 ^ (s.depth - 1) - 1 ∧ Buf.q.inRange v) ∧
    (∀ v ∈ reduce (s.memRead .q 0 s.count) s.windowSize, v ∈ s.memRead .q 0 s.count ∧ Buf.red.inRange v) ∧
    (∀ v ∈ restore (s.memRead .red 0 s.reducedCount) s.count s.depth s.windowSize,
      -(2 ^ 30) ≤ v ∧ v ≤ 2 ^ 30 ∧ Buf.rst.inRange v) ∧
    (∀ p ∈ clampAndPack (s.memRead .rst 0 s.count), Buf.out.inRange p.toNat) ∧
    ceildiv s.count s.windowSize ≤ s.count ∧ 2 * s.count ≤ 2 * Config.nmax ∧ 2 * Config.nmax ≤ 2 ^ 32 - 2

/-- R181: a BUSY block that HOST leaves alone reaches DONE after at most four steps of SEQ. -/
def Obligations.EveryAcceptedCommandEnds : Prop :=
  ∀ s : State, s.Inv → s.busy = true → s.host = [] →
    ∃ k t, k ≤ 4 ∧ core.run k s = .next t ∧ t.phase = .done

/-- R77: WAIT after a command other than CLR ends, and leaves PHASE at DONE or FAILED. The alternation of polls and
SEQ steps is the model's schedule (log entry 1). -/
def Obligations.WaitAfterACommandEnds : Prop :=
  ∀ (s : State) (i : Instr), s.Inv → s.busy = false → i ≠ .clr →
    ∃ k t, core.run k { s with host := scriptMoves [.command i, .wait] } = .next t ∧ t.host = [] ∧
      (t.phase = .done ∨ t.phase = .failed)

/-- The invariant holds at reset. -/
def Obligations.ResetMeetsTheInvariant : Prop := State.reset.Inv

/-- Every step keeps the invariant: the canonical form of the buffers, no element outside its range, ERR non-zero
exactly in FAILED and never 6 (R25, R126), CHAIN 1 only while BUSY (R32), the operands of every stage still to
come legal (R153), OLEN twice a legal length (R34). -/
def Obligations.EveryStepKeepsTheInvariant : Prop :=
  ∀ s t : State, s.Inv → step s = .next t → t.Inv
end

