-- ==== Sys2Proof/Laws/Arith.lean ====
section
/-! SUPPORT. What the exact arithmetic gives: the defining property of floor division, of the ceiling and of the
clamp, and when an integer survives being stored in an element. -/

namespace Sys2Proof.Machine

theorem floordiv_eq_ediv (a : Int) {d : Int} (h : 0 < d) : floordiv a d = a / d :=
  Int.fdiv_eq_ediv_of_nonneg a (Int.le_of_lt h)

/-- R7: q*d ≤ a < (q+1)*d. -/
theorem floordiv_spec (a : Int) {d : Int} (h : 0 < d) : floordiv a d * d ≤ a ∧ a < (floordiv a d + 1) * d := by
  rw [floordiv_eq_ediv a h]
  exact ⟨Int.ediv_mul_le a (Int.ne_of_gt h), Int.lt_ediv_add_one_mul_self a h⟩

/-- R7: the quotient is the only such integer. -/
theorem floordiv_unique {a d q : Int} (h : 0 < d) (h1 : q * d ≤ a) (h2 : a < (q + 1) * d) : floordiv a d = q := by
  have h3 := Int.le_ediv_of_mul_le h h1
  have h4 := Int.ediv_lt_of_lt_mul h h2
  rw [floordiv_eq_ediv a h]; omega

theorem clamp_bounds {lo hi : Int} (v : Int) (h : lo ≤ hi) : lo ≤ clamp v lo hi ∧ clamp v lo hi ≤ hi := by
  simp only [clamp]; split
  · omega
  · split <;> omega

theorem clamp_of_mem {v lo hi : Int} (h1 : lo ≤ v) (h2 : v ≤ hi) : clamp v lo hi = v := by
  simp only [clamp]; rw [if_neg (by omega), if_neg (by omega)]

/-- R9: the least m with m*w ≥ n. -/
theorem ceildiv_spec (n : Nat) {w : Nat} (h : 1 ≤ w) : n ≤ ceildiv n w * w ∧ ∀ m, n ≤ m * w → ceildiv n w ≤ m := by
  have hq := Nat.div_add_mod (n + w - 1) w
  have hm := Nat.mod_lt (n + w - 1) (show 0 < w by omega)
  have hc : w * ((n + w - 1) / w) = ceildiv n w * w := Nat.mul_comm ..
  refine ⟨by omega, fun m hn => ?_⟩
  refine Nat.le_of_lt_succ ((Nat.div_lt_iff_lt_mul (by omega)).2 ?_)
  rw [Nat.succ_mul]; omega

theorem ceildiv_le (n : Nat) {w : Nat} (h : 1 ≤ w) : ceildiv n w ≤ n :=
  (ceildiv_spec n h).2 n (Nat.le_mul_of_pos_right n h)

theorem ceildiv_zero (w : Nat) (h : 1 ≤ w) : ceildiv 0 w = 0 := Nat.div_eq_of_lt (by omega)

/-- An index below n falls in a window below `ceildiv n w`. -/
theorem idiv_lt_ceildiv {i n w : Nat} (h : 1 ≤ w) (hi : i < n) : idiv i w < ceildiv n w := by
  have := (ceildiv_spec n h).1
  exact (Nat.div_lt_iff_lt_mul (by omega)).2 (by omega)

/-- R6, R34: an integer of the element type is stored and read back exactly. -/
theorem toInt_ofInt {b : Buf} {v : Int} (h : b.inRange v) : b.toInt (BitVec.ofInt b.width v) = v := by
  cases b <;> simp only [Buf.inRange] at h <;>
    simp only [Buf.toInt, Buf.signed, Buf.width, if_true, Bool.false_eq_true, if_false]
  case out =>
    rw [BitVec.toNat_ofInt]; omega
  all_goals
    rw [BitVec.toInt_ofInt]
    apply Int.bmod_eq_of_le <;> omega

theorem toInt_inS16 (v : BitVec 16) : -32768 ≤ v.toInt ∧ v.toInt ≤ 32767 := by
  have h1 := BitVec.le_toInt v
  have h2 := BitVec.toInt_lt (x := v)
  omega

theorem toInt_inS32 (v : BitVec 32) : -2147483648 ≤ v.toInt ∧ v.toInt ≤ 2147483647 := by
  have h1 := BitVec.le_toInt v
  have h2 := BitVec.toInt_lt (x := v)
  omega

theorem toNat_inByte (v : BitVec 8) : (0 : Int) ≤ v.toNat ∧ (v.toNat : Int) ≤ 255 := by
  have := v.isLt
  omega

/-- What is read from an element is an integer of its type. -/
theorem toInt_inRange (b : Buf) (v : BitVec b.width) : b.inRange (b.toInt v) := by
  cases b with
  | src => exact toInt_inS16 v
  | q => exact toInt_inS16 v
  | red => exact toInt_inS16 v
  | rst => exact toInt_inS32 v
  | out => exact toNat_inByte v

theorem one_le_nmax : 1 ≤ Config.nmax := Nat.le_add_left 1 _

theorem nmax_lt : Config.nmax < 2 ^ 31 := by
  have := Config.nmaxPred.isLt
  simp only [Config.nmax]; omega

end Sys2Proof.Machine
end

