-- ==== Sys2Proof/Laws/Memory.lean ====
section
/-! SUPPORT. The laws of a buffer's storage: a read after a write, and the canonical form. -/

namespace Sys2Proof.Machine

variable {n : Nat}

@[simp] theorem Memory.get_nil (i : Nat) : Memory.get ([] : Memory n) i = none := rfl

@[simp] theorem Memory.get_set_same (m : Memory n) (i : Nat) (v : BitVec n) : (m.set i v).get i = some v := by
  induction m with
  | nil => simp [Memory.set, Memory.get]
  | cons e rest ih =>
    obtain ⟨k, u⟩ := e
    simp only [Memory.set]
    split
    · simp [Memory.get]
    · split
      · simp [Memory.get]
      · simp [Memory.get, ih, show ¬k = i by omega]

theorem Memory.get_set_other (m : Memory n) {i j : Nat} (v : BitVec n) (h : j ≠ i) : (m.set i v).get j = m.get j := by
  induction m with
  | nil => simp [Memory.set, Memory.get, h.symm]
  | cons e rest ih =>
    obtain ⟨k, u⟩ := e
    simp only [Memory.set]
    split
    · simp [Memory.get, h.symm]
    · split
      · rename_i _ hk
        simp [Memory.get, h.symm, ← hk]
      · simp [Memory.get, ih]

/-- A read after a block write. -/
theorem Memory.get_setAll (vs : List (BitVec n)) (m : Memory n) (i j : Nat) :
    (m.setAll i vs).get j = if i ≤ j ∧ j < i + vs.length then vs[j - i]? else m.get j := by
  induction vs generalizing m i with
  | nil => simp only [Memory.setAll, List.length_nil]; rw [if_neg (by omega)]
  | cons v vs ih =>
    simp only [Memory.setAll, ih, List.length_cons]
    by_cases h : j = i
    · subst h; simp
    · rw [Memory.get_set_other m v h]
      by_cases h' : i + 1 ≤ j ∧ j < i + 1 + vs.length
      · rw [if_pos h', if_pos (by omega), show j - i = (j - (i + 1)) + 1 by omega, List.getElem?_cons_succ]
      · rw [if_neg h', if_neg (by omega)]

theorem Memory.risingFrom_mono {m : Memory n} {a b : Nat} (h : a ≤ b) (hb : m.risingFrom b = true) :
    m.risingFrom a = true := by
  cases m with
  | nil => rfl
  | cons e rest => simp only [Memory.risingFrom, Bool.and_eq_true, decide_eq_true_eq] at *; exact ⟨by omega, hb.2⟩

theorem Memory.risingFrom_set {m : Memory n} {low i : Nat} (v : BitVec n) (h : m.risingFrom low = true) (hi : low ≤ i) :
    (m.set i v).risingFrom low = true := by
  induction m generalizing low with
  | nil => simp [Memory.set, Memory.risingFrom, hi]
  | cons e rest ih =>
    obtain ⟨k, u⟩ := e
    simp only [Memory.risingFrom, Bool.and_eq_true, decide_eq_true_eq] at h
    simp only [Memory.set]
    split
    · simp only [Memory.risingFrom, Bool.and_eq_true, decide_eq_true_eq]; exact ⟨hi, by omega, h.2⟩
    · split
      · rename_i _ hk; subst hk; simp only [Memory.risingFrom, Bool.and_eq_true, decide_eq_true_eq]; exact ⟨hi, h.2⟩
      · simp only [Memory.risingFrom, Bool.and_eq_true, decide_eq_true_eq]; exact ⟨h.1, ih h.2 (by omega)⟩

/-- Every write keeps the canonical form. -/
theorem Memory.wf_set {m : Memory n} (i : Nat) (v : BitVec n) (h : m.wf = true) : (m.set i v).wf = true :=
  Memory.risingFrom_set v h (Nat.zero_le i)

theorem Memory.wf_setAll (vs : List (BitVec n)) {m : Memory n} (i : Nat) (h : m.wf = true) :
    (m.setAll i vs).wf = true := by
  induction vs generalizing m i with
  | nil => exact h
  | cons v vs ih => exact ih (i + 1) (Memory.wf_set i v h)

theorem Memory.within_set {m : Memory n} {cap i : Nat} (v : BitVec n) (h : m.within cap) (hi : i < cap) :
    (m.set i v).within cap := by
  induction m with
  | nil => intro e he; simp only [Memory.set, List.mem_singleton] at he; subst he; exact hi
  | cons e rest ih =>
    obtain ⟨k, u⟩ := e
    have hr : Memory.within cap rest := fun x hx => h x (List.mem_cons_of_mem _ hx)
    have hk : k < cap := h (k, u) List.mem_cons_self
    simp only [Memory.set]
    split
    · intro x hx
      rcases List.mem_cons.1 hx with rfl | hx
      exacts [hi, h x hx]
    · split
      · intro x hx
        rcases List.mem_cons.1 hx with rfl | hx
        exacts [hi, hr x hx]
      · intro x hx
        rcases List.mem_cons.1 hx with rfl | hx
        exacts [hk, ih hr x hx]

theorem Memory.within_setAll (vs : List (BitVec n)) {m : Memory n} {cap i : Nat} (h : m.within cap)
    (hi : i + vs.length ≤ cap) : (m.setAll i vs).within cap := by
  induction vs generalizing m i with
  | nil => exact h
  | cons v vs ih =>
    simp only [List.length_cons] at hi
    exact ih (Memory.within_set v h (by omega)) (by omega)

theorem Memory.get_eq_none_of_risingFrom {m : Memory n} {low i : Nat} (h : m.risingFrom low = true) (hi : i < low) :
    m.get i = none := by
  induction m generalizing low with
  | nil => rfl
  | cons e rest ih =>
    simp only [Memory.risingFrom, Bool.and_eq_true, decide_eq_true_eq] at h
    simp only [Memory.get]
    rw [if_neg (by omega)]
    exact ih h.2 (by omega)

/-- Equal memories are equal data: two canonical storages that hold the same elements are the same list. -/
theorem Memory.eq_of_get_eq {m m' : Memory n} {low low' : Nat} (h : m.risingFrom low = true)
    (h' : m'.risingFrom low' = true) (he : ∀ i, m.get i = m'.get i) : m = m' := by
  induction m generalizing m' low low' with
  | nil =>
    cases m' with
    | nil => rfl
    | cons e' r' => have := he e'.1; simp [Memory.get] at this
  | cons e rest ih =>
    cases m' with
    | nil => have := he e.1; simp [Memory.get] at this
    | cons e' r' =>
      obtain ⟨k, u⟩ := e
      obtain ⟨k', u'⟩ := e'
      simp only [Memory.risingFrom, Bool.and_eq_true, decide_eq_true_eq] at h h'
      have hk : k = k' := by
        rcases Nat.lt_trichotomy k k' with hlt | heq | hgt
        · have := he k
          rw [Memory.get, if_pos rfl, Memory.get, if_neg (by omega),
            Memory.get_eq_none_of_risingFrom h'.2 (by omega)] at this
          exact absurd this (by simp)
        · exact heq
        · have := he k'
          rw [Memory.get, if_neg (by omega), Memory.get_eq_none_of_risingFrom h.2 (by omega), Memory.get,
            if_pos rfl] at this
          exact absurd this (by simp)
      subst hk
      have hu : u = u' := by have := he k; simpa [Memory.get] using this
      subst hu
      refine congrArg _ (ih h.2 h'.2 fun i => ?_)
      by_cases hi : i < k + 1
      · rw [Memory.get_eq_none_of_risingFrom h.2 hi, Memory.get_eq_none_of_risingFrom h'.2 hi]
      · have := he i
        rwa [Memory.get, if_neg (by omega), Memory.get, if_neg (by omega)] at this

end Sys2Proof.Machine
end

