-- ==== Sys2Proof/Laws/State.lean ====
section
/-! SUPPORT. One lemma per field per update of State, so that no later proof unfolds a record update; and what
each update does to a read of a buffer element. -/

namespace Sys2Proof.Machine

variable (s : State)

/-! ### Buffers as one family -/

@[simp] theorem buf_setBuf_same (b : Buf) (m : Memory b.width) : (s.setBuf b m).buf b = m := by cases b <;> rfl
theorem buf_setBuf_other {b c : Buf} (m : Memory b.width) (h : c ≠ b) : (s.setBuf b m).buf c = s.buf c := by
  cases b <;> cases c <;> first | rfl | exact absurd rfl h
@[simp] theorem setBuf_phase (b : Buf) (m : Memory b.width) : (s.setBuf b m).phase = s.phase := by cases b <;> rfl
@[simp] theorem setBuf_err (b : Buf) (m : Memory b.width) : (s.setBuf b m).err = s.err := by cases b <;> rfl
@[simp] theorem setBuf_chain (b : Buf) (m : Memory b.width) : (s.setBuf b m).chain = s.chain := by cases b <;> rfl
@[simp] theorem setBuf_bits (b : Buf) (m : Memory b.width) : (s.setBuf b m).bits = s.bits := by cases b <;> rfl
@[simp] theorem setBuf_window (b : Buf) (m : Memory b.width) : (s.setBuf b m).window = s.window := by cases b <;> rfl
@[simp] theorem setBuf_len (b : Buf) (m : Memory b.width) : (s.setBuf b m).len = s.len := by cases b <;> rfl
@[simp] theorem setBuf_rlen (b : Buf) (m : Memory b.width) : (s.setBuf b m).rlen = s.rlen := by cases b <;> rfl
@[simp] theorem setBuf_olen (b : Buf) (m : Memory b.width) : (s.setBuf b m).olen = s.olen := by cases b <;> rfl
@[simp] theorem setBuf_draw (b : Buf) (m : Memory b.width) : (s.setBuf b m).draw = s.draw := by cases b <;> rfl
@[simp] theorem setBuf_host (b : Buf) (m : Memory b.width) : (s.setBuf b m).host = s.host := by cases b <;> rfl
@[simp] theorem setBuf_received (b : Buf) (m : Memory b.width) : (s.setBuf b m).received = s.received := by cases b <;> rfl

/-- A read of an element looks at its buffer and at the draw only. -/
theorem readElem_congr {s t : State} {b : Buf} (hb : t.buf b = s.buf b) (hd : t.draw = s.draw) (i : Nat) :
    t.readElem b i = s.readElem b i := by simp only [State.readElem, hb, hd]
theorem readInt_congr {s t : State} {b : Buf} (hb : t.buf b = s.buf b) (hd : t.draw = s.draw) (i : Nat) :
    t.readInt b i = s.readInt b i := by simp only [State.readInt, readElem_congr hb hd]
theorem memRead_congr {s t : State} {b : Buf} (hb : t.buf b = s.buf b) (hd : t.draw = s.draw) (i n : Nat) :
    t.memRead b i n = s.memRead b i n := by simp only [State.memRead, readInt_congr hb hd]

/-! ### raise -/

@[simp] theorem raise_phase (e : ErrCode) : (s.raise e).phase = .failed := rfl
@[simp] theorem raise_err (e : ErrCode) : (s.raise e).err = e := rfl
@[simp] theorem raise_chain (e : ErrCode) : (s.raise e).chain = false := rfl
@[simp] theorem raise_bits (e : ErrCode) : (s.raise e).bits = s.bits := rfl
@[simp] theorem raise_window (e : ErrCode) : (s.raise e).window = s.window := rfl
@[simp] theorem raise_len (e : ErrCode) : (s.raise e).len = s.len := rfl
@[simp] theorem raise_rlen (e : ErrCode) : (s.raise e).rlen = s.rlen := rfl
@[simp] theorem raise_olen (e : ErrCode) : (s.raise e).olen = s.olen := rfl
@[simp] theorem raise_src (e : ErrCode) : (s.raise e).src = s.src := rfl
@[simp] theorem raise_q (e : ErrCode) : (s.raise e).q = s.q := rfl
@[simp] theorem raise_red (e : ErrCode) : (s.raise e).red = s.red := rfl
@[simp] theorem raise_rst (e : ErrCode) : (s.raise e).rst = s.rst := rfl
@[simp] theorem raise_out (e : ErrCode) : (s.raise e).out = s.out := rfl
@[simp] theorem raise_draw (e : ErrCode) : (s.raise e).draw = s.draw := rfl
@[simp] theorem raise_host (e : ErrCode) : (s.raise e).host = s.host := rfl
@[simp] theorem raise_received (e : ErrCode) : (s.raise e).received = s.received := rfl
@[simp] theorem raise_buf (e : ErrCode) (b : Buf) : (s.raise e).buf b = s.buf b := by cases b <;> rfl
@[simp] theorem raise_readElem (e : ErrCode) (b : Buf) (i : Nat) : (s.raise e).readElem b i = s.readElem b i :=
  readElem_congr (raise_buf s e b) rfl i
@[simp] theorem raise_readInt (e : ErrCode) (b : Buf) (i : Nat) : (s.raise e).readInt b i = s.readInt b i :=
  readInt_congr (raise_buf s e b) rfl i
@[simp] theorem raise_memRead (e : ErrCode) (b : Buf) (i n : Nat) : (s.raise e).memRead b i n = s.memRead b i n :=
  memRead_congr (raise_buf s e b) rfl i n

/-! ### clear -/

@[simp] theorem clear_phase : s.clear.phase = .idle := rfl
@[simp] theorem clear_err : s.clear.err = .none := rfl
@[simp] theorem clear_chain : s.clear.chain = false := rfl
@[simp] theorem clear_bits : s.clear.bits = s.bits := rfl
@[simp] theorem clear_window : s.clear.window = s.window := rfl
@[simp] theorem clear_len : s.clear.len = s.len := rfl
@[simp] theorem clear_rlen : s.clear.rlen = s.rlen := rfl
@[simp] theorem clear_olen : s.clear.olen = s.olen := rfl
@[simp] theorem clear_src : s.clear.src = s.src := rfl
@[simp] theorem clear_q : s.clear.q = s.q := rfl
@[simp] theorem clear_red : s.clear.red = s.red := rfl
@[simp] theorem clear_rst : s.clear.rst = s.rst := rfl
@[simp] theorem clear_out : s.clear.out = s.out := rfl
@[simp] theorem clear_draw : s.clear.draw = s.draw := rfl
@[simp] theorem clear_host : s.clear.host = s.host := rfl
@[simp] theorem clear_received : s.clear.received = s.received := rfl
@[simp] theorem clear_buf (b : Buf) : s.clear.buf b = s.buf b := by cases b <;> rfl
@[simp] theorem clear_readElem (b : Buf) (i : Nat) : s.clear.readElem b i = s.readElem b i :=
  readElem_congr (clear_buf s b) rfl i
@[simp] theorem clear_readInt (b : Buf) (i : Nat) : s.clear.readInt b i = s.readInt b i :=
  readInt_congr (clear_buf s b) rfl i
@[simp] theorem clear_memRead (b : Buf) (i n : Nat) : s.clear.memRead b i n = s.memRead b i n :=
  memRead_congr (clear_buf s b) rfl i n

/-! ### start -/

@[simp] theorem start_phase (p : Phase) (c : Bool) : (s.start p c).phase = p := rfl
@[simp] theorem start_err (p : Phase) (c : Bool) : (s.start p c).err = s.err := rfl
@[simp] theorem start_chain (p : Phase) (c : Bool) : (s.start p c).chain = c := rfl
@[simp] theorem start_bits (p : Phase) (c : Bool) : (s.start p c).bits = s.bits := rfl
@[simp] theorem start_window (p : Phase) (c : Bool) : (s.start p c).window = s.window := rfl
@[simp] theorem start_len (p : Phase) (c : Bool) : (s.start p c).len = s.len := rfl
@[simp] theorem start_rlen (p : Phase) (c : Bool) : (s.start p c).rlen = s.rlen := rfl
@[simp] theorem start_olen (p : Phase) (c : Bool) : (s.start p c).olen = s.olen := rfl
@[simp] theorem start_src (p : Phase) (c : Bool) : (s.start p c).src = s.src := rfl
@[simp] theorem start_q (p : Phase) (c : Bool) : (s.start p c).q = s.q := rfl
@[simp] theorem start_red (p : Phase) (c : Bool) : (s.start p c).red = s.red := rfl
@[simp] theorem start_rst (p : Phase) (c : Bool) : (s.start p c).rst = s.rst := rfl
@[simp] theorem start_out (p : Phase) (c : Bool) : (s.start p c).out = s.out := rfl
@[simp] theorem start_draw (p : Phase) (c : Bool) : (s.start p c).draw = s.draw := rfl
@[simp] theorem start_host (p : Phase) (c : Bool) : (s.start p c).host = s.host := rfl
@[simp] theorem start_received (p : Phase) (c : Bool) : (s.start p c).received = s.received := rfl
@[simp] theorem start_buf (p : Phase) (c : Bool) (b : Buf) : (s.start p c).buf b = s.buf b := by cases b <;> rfl
@[simp] theorem start_readElem (p : Phase) (c : Bool) (b : Buf) (i : Nat) : (s.start p c).readElem b i = s.readElem b i :=
  readElem_congr (start_buf s p c b) rfl i
@[simp] theorem start_readInt (p : Phase) (c : Bool) (b : Buf) (i : Nat) : (s.start p c).readInt b i = s.readInt b i :=
  readInt_congr (start_buf s p c b) rfl i
@[simp] theorem start_memRead (p : Phase) (c : Bool) (b : Buf) (i n : Nat) : (s.start p c).memRead b i n = s.memRead b i n :=
  memRead_congr (start_buf s p c b) rfl i n

/-! ### advance -/

@[simp] theorem advance_phase (p : Phase) : (s.advance p).phase = (bif s.chain then p else .done) := rfl
@[simp] theorem advance_err (p : Phase) : (s.advance p).err = s.err := rfl
@[simp] theorem advance_chain (p : Phase) : (s.advance p).chain = s.chain := rfl
@[simp] theorem advance_bits (p : Phase) : (s.advance p).bits = s.bits := rfl
@[simp] theorem advance_window (p : Phase) : (s.advance p).window = s.window := rfl
@[simp] theorem advance_len (p : Phase) : (s.advance p).len = s.len := rfl
@[simp] theorem advance_rlen (p : Phase) : (s.advance p).rlen = s.rlen := rfl
@[simp] theorem advance_olen (p : Phase) : (s.advance p).olen = s.olen := rfl
@[simp] theorem advance_src (p : Phase) : (s.advance p).src = s.src := rfl
@[simp] theorem advance_q (p : Phase) : (s.advance p).q = s.q := rfl
@[simp] theorem advance_red (p : Phase) : (s.advance p).red = s.red := rfl
@[simp] theorem advance_rst (p : Phase) : (s.advance p).rst = s.rst := rfl
@[simp] theorem advance_out (p : Phase) : (s.advance p).out = s.out := rfl
@[simp] theorem advance_draw (p : Phase) : (s.advance p).draw = s.draw := rfl
@[simp] theorem advance_host (p : Phase) : (s.advance p).host = s.host := rfl
@[simp] theorem advance_received (p : Phase) : (s.advance p).received = s.received := rfl
@[simp] theorem advance_buf (p : Phase) (b : Buf) : (s.advance p).buf b = s.buf b := by cases b <;> rfl
@[simp] theorem advance_readElem (p : Phase) (b : Buf) (i : Nat) : (s.advance p).readElem b i = s.readElem b i :=
  readElem_congr (advance_buf s p b) rfl i
@[simp] theorem advance_readInt (p : Phase) (b : Buf) (i : Nat) : (s.advance p).readInt b i = s.readInt b i :=
  readInt_congr (advance_buf s p b) rfl i
@[simp] theorem advance_memRead (p : Phase) (b : Buf) (i n : Nat) : (s.advance p).memRead b i n = s.memRead b i n :=
  memRead_congr (advance_buf s p b) rfl i n

/-! ### finish -/

@[simp] theorem finish_phase : s.finish.phase = .done := rfl
@[simp] theorem finish_err : s.finish.err = s.err := rfl
@[simp] theorem finish_chain : s.finish.chain = false := rfl
@[simp] theorem finish_bits : s.finish.bits = s.bits := rfl
@[simp] theorem finish_window : s.finish.window = s.window := rfl
@[simp] theorem finish_len : s.finish.len = s.len := rfl
@[simp] theorem finish_rlen : s.finish.rlen = s.rlen := rfl
@[simp] theorem finish_olen : s.finish.olen = s.olen := rfl
@[simp] theorem finish_src : s.finish.src = s.src := rfl
@[simp] theorem finish_q : s.finish.q = s.q := rfl
@[simp] theorem finish_red : s.finish.red = s.red := rfl
@[simp] theorem finish_rst : s.finish.rst = s.rst := rfl
@[simp] theorem finish_out : s.finish.out = s.out := rfl
@[simp] theorem finish_draw : s.finish.draw = s.draw := rfl
@[simp] theorem finish_host : s.finish.host = s.host := rfl
@[simp] theorem finish_received : s.finish.received = s.received := rfl
@[simp] theorem finish_buf (b : Buf) : s.finish.buf b = s.buf b := by cases b <;> rfl
@[simp] theorem finish_readElem (b : Buf) (i : Nat) : s.finish.readElem b i = s.readElem b i :=
  readElem_congr (finish_buf s b) rfl i
@[simp] theorem finish_readInt (b : Buf) (i : Nat) : s.finish.readInt b i = s.readInt b i :=
  readInt_congr (finish_buf s b) rfl i
@[simp] theorem finish_memRead (b : Buf) (i n : Nat) : s.finish.memRead b i n = s.memRead b i n :=
  memRead_congr (finish_buf s b) rfl i n

/-! ### setHost -/

@[simp] theorem setHost_phase (ms : List HostMove) : (s.setHost ms).phase = s.phase := rfl
@[simp] theorem setHost_err (ms : List HostMove) : (s.setHost ms).err = s.err := rfl
@[simp] theorem setHost_chain (ms : List HostMove) : (s.setHost ms).chain = s.chain := rfl
@[simp] theorem setHost_bits (ms : List HostMove) : (s.setHost ms).bits = s.bits := rfl
@[simp] theorem setHost_window (ms : List HostMove) : (s.setHost ms).window = s.window := rfl
@[simp] theorem setHost_len (ms : List HostMove) : (s.setHost ms).len = s.len := rfl
@[simp] theorem setHost_rlen (ms : List HostMove) : (s.setHost ms).rlen = s.rlen := rfl
@[simp] theorem setHost_olen (ms : List HostMove) : (s.setHost ms).olen = s.olen := rfl
@[simp] theorem setHost_src (ms : List HostMove) : (s.setHost ms).src = s.src := rfl
@[simp] theorem setHost_q (ms : List HostMove) : (s.setHost ms).q = s.q := rfl
@[simp] theorem setHost_red (ms : List HostMove) : (s.setHost ms).red = s.red := rfl
@[simp] theorem setHost_rst (ms : List HostMove) : (s.setHost ms).rst = s.rst := rfl
@[simp] theorem setHost_out (ms : List HostMove) : (s.setHost ms).out = s.out := rfl
@[simp] theorem setHost_draw (ms : List HostMove) : (s.setHost ms).draw = s.draw := rfl
@[simp] theorem setHost_host (ms : List HostMove) : (s.setHost ms).host = ms := rfl
@[simp] theorem setHost_received (ms : List HostMove) : (s.setHost ms).received = s.received := rfl
@[simp] theorem setHost_buf (ms : List HostMove) (b : Buf) : (s.setHost ms).buf b = s.buf b := by cases b <;> rfl
@[simp] theorem setHost_readElem (ms : List HostMove) (b : Buf) (i : Nat) : (s.setHost ms).readElem b i = s.readElem b i :=
  readElem_congr (setHost_buf s ms b) rfl i
@[simp] theorem setHost_readInt (ms : List HostMove) (b : Buf) (i : Nat) : (s.setHost ms).readInt b i = s.readInt b i :=
  readInt_congr (setHost_buf s ms b) rfl i
@[simp] theorem setHost_memRead (ms : List HostMove) (b : Buf) (i n : Nat) : (s.setHost ms).memRead b i n = s.memRead b i n :=
  memRead_congr (setHost_buf s ms b) rfl i n

/-! ### receive -/

@[simp] theorem receive_phase (v : PortValue) : (s.receive v).phase = s.phase := rfl
@[simp] theorem receive_err (v : PortValue) : (s.receive v).err = s.err := rfl
@[simp] theorem receive_chain (v : PortValue) : (s.receive v).chain = s.chain := rfl
@[simp] theorem receive_bits (v : PortValue) : (s.receive v).bits = s.bits := rfl
@[simp] theorem receive_window (v : PortValue) : (s.receive v).window = s.window := rfl
@[simp] theorem receive_len (v : PortValue) : (s.receive v).len = s.len := rfl
@[simp] theorem receive_rlen (v : PortValue) : (s.receive v).rlen = s.rlen := rfl
@[simp] theorem receive_olen (v : PortValue) : (s.receive v).olen = s.olen := rfl
@[simp] theorem receive_src (v : PortValue) : (s.receive v).src = s.src := rfl
@[simp] theorem receive_q (v : PortValue) : (s.receive v).q = s.q := rfl
@[simp] theorem receive_red (v : PortValue) : (s.receive v).red = s.red := rfl
@[simp] theorem receive_rst (v : PortValue) : (s.receive v).rst = s.rst := rfl
@[simp] theorem receive_out (v : PortValue) : (s.receive v).out = s.out := rfl
@[simp] theorem receive_draw (v : PortValue) : (s.receive v).draw = s.draw := rfl
@[simp] theorem receive_host (v : PortValue) : (s.receive v).host = s.host := rfl
@[simp] theorem receive_received (v : PortValue) : (s.receive v).received = v :: s.received := rfl
@[simp] theorem receive_buf (v : PortValue) (b : Buf) : (s.receive v).buf b = s.buf b := by cases b <;> rfl
@[simp] theorem receive_readElem (v : PortValue) (b : Buf) (i : Nat) : (s.receive v).readElem b i = s.readElem b i :=
  readElem_congr (receive_buf s v b) rfl i
@[simp] theorem receive_readInt (v : PortValue) (b : Buf) (i : Nat) : (s.receive v).readInt b i = s.readInt b i :=
  readInt_congr (receive_buf s v b) rfl i
@[simp] theorem receive_memRead (v : PortValue) (b : Buf) (i n : Nat) : (s.receive v).memRead b i n = s.memRead b i n :=
  memRead_congr (receive_buf s v b) rfl i n

/-! ### resetBlock (R40, R170) -/

@[simp] theorem resetBlock_phase : s.resetBlock.phase = .idle := rfl
@[simp] theorem resetBlock_err : s.resetBlock.err = .none := rfl
@[simp] theorem resetBlock_chain : s.resetBlock.chain = false := rfl
@[simp] theorem resetBlock_bits : s.resetBlock.bits = 8#32 := rfl
@[simp] theorem resetBlock_window : s.resetBlock.window = 3#32 := rfl
@[simp] theorem resetBlock_len : s.resetBlock.len = 0#32 := rfl
@[simp] theorem resetBlock_rlen : s.resetBlock.rlen = 0#32 := rfl
@[simp] theorem resetBlock_olen : s.resetBlock.olen = 0#32 := rfl
@[simp] theorem resetBlock_src : s.resetBlock.src = [] := rfl
@[simp] theorem resetBlock_q : s.resetBlock.q = [] := rfl
@[simp] theorem resetBlock_red : s.resetBlock.red = [] := rfl
@[simp] theorem resetBlock_rst : s.resetBlock.rst = [] := rfl
@[simp] theorem resetBlock_out : s.resetBlock.out = [] := rfl
@[simp] theorem resetBlock_draw : s.resetBlock.draw = s.draw + 1 := rfl
@[simp] theorem resetBlock_host : s.resetBlock.host = s.host := rfl
@[simp] theorem resetBlock_received : s.resetBlock.received = s.received := rfl
@[simp] theorem resetBlock_buf (b : Buf) : s.resetBlock.buf b = [] := by cases b <;> rfl

/-! ### memWrite and writeElem -/

@[simp] theorem memWrite_phase (b : Buf) (i : Nat) (vs : List Int) : (s.memWrite b i vs).phase = s.phase := setBuf_phase s b _
@[simp] theorem writeElem_phase (b : Buf) (i : Nat) (v : BitVec b.width) : (s.writeElem b i v).phase = s.phase := setBuf_phase s b _
@[simp] theorem memWrite_err (b : Buf) (i : Nat) (vs : List Int) : (s.memWrite b i vs).err = s.err := setBuf_err s b _
@[simp] theorem writeElem_err (b : Buf) (i : Nat) (v : BitVec b.width) : (s.writeElem b i v).err = s.err := setBuf_err s b _
@[simp] theorem memWrite_chain (b : Buf) (i : Nat) (vs : List Int) : (s.memWrite b i vs).chain = s.chain := setBuf_chain s b _
@[simp] theorem writeElem_chain (b : Buf) (i : Nat) (v : BitVec b.width) : (s.writeElem b i v).chain = s.chain := setBuf_chain s b _
@[simp] theorem memWrite_bits (b : Buf) (i : Nat) (vs : List Int) : (s.memWrite b i vs).bits = s.bits := setBuf_bits s b _
@[simp] theorem writeElem_bits (b : Buf) (i : Nat) (v : BitVec b.width) : (s.writeElem b i v).bits = s.bits := setBuf_bits s b _
@[simp] theorem memWrite_window (b : Buf) (i : Nat) (vs : List Int) : (s.memWrite b i vs).window = s.window := setBuf_window s b _
@[simp] theorem writeElem_window (b : Buf) (i : Nat) (v : BitVec b.width) : (s.writeElem b i v).window = s.window := setBuf_window s b _
@[simp] theorem memWrite_len (b : Buf) (i : Nat) (vs : List Int) : (s.memWrite b i vs).len = s.len := setBuf_len s b _
@[simp] theorem writeElem_len (b : Buf) (i : Nat) (v : BitVec b.width) : (s.writeElem b i v).len = s.len := setBuf_len s b _
@[simp] theorem memWrite_rlen (b : Buf) (i : Nat) (vs : List Int) : (s.memWrite b i vs).rlen = s.rlen := setBuf_rlen s b _
@[simp] theorem writeElem_rlen (b : Buf) (i : Nat) (v : BitVec b.width) : (s.writeElem b i v).rlen = s.rlen := setBuf_rlen s b _
@[simp] theorem memWrite_olen (b : Buf) (i : Nat) (vs : List Int) : (s.memWrite b i vs).olen = s.olen := setBuf_olen s b _
@[simp] theorem writeElem_olen (b : Buf) (i : Nat) (v : BitVec b.width) : (s.writeElem b i v).olen = s.olen := setBuf_olen s b _
@[simp] theorem memWrite_draw (b : Buf) (i : Nat) (vs : List Int) : (s.memWrite b i vs).draw = s.draw := setBuf_draw s b _
@[simp] theorem writeElem_draw (b : Buf) (i : Nat) (v : BitVec b.width) : (s.writeElem b i v).draw = s.draw := setBuf_draw s b _
@[simp] theorem memWrite_host (b : Buf) (i : Nat) (vs : List Int) : (s.memWrite b i vs).host = s.host := setBuf_host s b _
@[simp] theorem writeElem_host (b : Buf) (i : Nat) (v : BitVec b.width) : (s.writeElem b i v).host = s.host := setBuf_host s b _
@[simp] theorem memWrite_received (b : Buf) (i : Nat) (vs : List Int) : (s.memWrite b i vs).received = s.received := setBuf_received s b _
@[simp] theorem writeElem_received (b : Buf) (i : Nat) (v : BitVec b.width) : (s.writeElem b i v).received = s.received := setBuf_received s b _
theorem memWrite_buf_other {b c : Buf} (i : Nat) (vs : List Int) (h : c ≠ b) : (s.memWrite b i vs).buf c = s.buf c :=
  buf_setBuf_other s _ h
theorem writeElem_buf_other {b c : Buf} (i : Nat) (v : BitVec b.width) (h : c ≠ b) : (s.writeElem b i v).buf c = s.buf c :=
  buf_setBuf_other s _ h

/-! ### storeReduced and storePacked -/

@[simp] theorem storeReduced_phase (r : List Int) : (s.storeReduced r).phase = s.phase := rfl
@[simp] theorem storeReduced_err (r : List Int) : (s.storeReduced r).err = s.err := rfl
@[simp] theorem storeReduced_chain (r : List Int) : (s.storeReduced r).chain = s.chain := rfl
@[simp] theorem storeReduced_bits (r : List Int) : (s.storeReduced r).bits = s.bits := rfl
@[simp] theorem storeReduced_window (r : List Int) : (s.storeReduced r).window = s.window := rfl
@[simp] theorem storeReduced_len (r : List Int) : (s.storeReduced r).len = s.len := rfl
@[simp] theorem storeReduced_rlen (r : List Int) : (s.storeReduced r).rlen = BitVec.ofNat 32 r.length := rfl
@[simp] theorem storeReduced_olen (r : List Int) : (s.storeReduced r).olen = s.olen := rfl
@[simp] theorem storeReduced_draw (r : List Int) : (s.storeReduced r).draw = s.draw := rfl
@[simp] theorem storeReduced_host (r : List Int) : (s.storeReduced r).host = s.host := rfl
@[simp] theorem storeReduced_received (r : List Int) : (s.storeReduced r).received = s.received := rfl
@[simp] theorem storePacked_phase (p : List Byte) : (s.storePacked p).phase = s.phase := rfl
@[simp] theorem storePacked_err (p : List Byte) : (s.storePacked p).err = s.err := rfl
@[simp] theorem storePacked_chain (p : List Byte) : (s.storePacked p).chain = s.chain := rfl
@[simp] theorem storePacked_bits (p : List Byte) : (s.storePacked p).bits = s.bits := rfl
@[simp] theorem storePacked_window (p : List Byte) : (s.storePacked p).window = s.window := rfl
@[simp] theorem storePacked_len (p : List Byte) : (s.storePacked p).len = s.len := rfl
@[simp] theorem storePacked_rlen (p : List Byte) : (s.storePacked p).rlen = s.rlen := rfl
@[simp] theorem storePacked_olen (p : List Byte) : (s.storePacked p).olen = BitVec.ofNat 32 (2 * s.count) := rfl
@[simp] theorem storePacked_draw (p : List Byte) : (s.storePacked p).draw = s.draw := rfl
@[simp] theorem storePacked_host (p : List Byte) : (s.storePacked p).host = s.host := rfl
@[simp] theorem storePacked_received (p : List Byte) : (s.storePacked p).received = s.received := rfl
@[simp] theorem storeReduced_buf (r : List Int) (b : Buf) : (s.storeReduced r).buf b = (s.memWrite .red 0 r).buf b := by cases b <;> rfl
@[simp] theorem storePacked_buf (p : List Byte) (b : Buf) :
    (s.storePacked p).buf b = (s.memWrite .out 0 (p.map fun x => (x.toNat : Int))).buf b := by cases b <;> rfl

/-! ### The operand readings under each update -/

@[simp] theorem raise_depth (e : ErrCode) : (s.raise e).depth = s.depth := rfl
@[simp] theorem clear_depth : s.clear.depth = s.depth := rfl
@[simp] theorem start_depth (p : Phase) (c : Bool) : (s.start p c).depth = s.depth := rfl
@[simp] theorem advance_depth (p : Phase) : (s.advance p).depth = s.depth := rfl
@[simp] theorem finish_depth : s.finish.depth = s.depth := rfl
@[simp] theorem setHost_depth (ms : List HostMove) : (s.setHost ms).depth = s.depth := rfl
@[simp] theorem receive_depth (v : PortValue) : (s.receive v).depth = s.depth := rfl
@[simp] theorem memWrite_depth (b : Buf) (i : Nat) (vs : List Int) : (s.memWrite b i vs).depth = s.depth := by simp [State.depth]
@[simp] theorem writeElem_depth (b : Buf) (i : Nat) (v : BitVec b.width) : (s.writeElem b i v).depth = s.depth := by simp [State.depth]
@[simp] theorem storeReduced_depth (r : List Int) : (s.storeReduced r).depth = s.depth := rfl
@[simp] theorem storePacked_depth (p : List Byte) : (s.storePacked p).depth = s.depth := rfl
@[simp] theorem raise_windowSize (e : ErrCode) : (s.raise e).windowSize = s.windowSize := rfl
@[simp] theorem clear_windowSize : s.clear.windowSize = s.windowSize := rfl
@[simp] theorem start_windowSize (p : Phase) (c : Bool) : (s.start p c).windowSize = s.windowSize := rfl
@[simp] theorem advance_windowSize (p : Phase) : (s.advance p).windowSize = s.windowSize := rfl
@[simp] theorem finish_windowSize : s.finish.windowSize = s.windowSize := rfl
@[simp] theorem setHost_windowSize (ms : List HostMove) : (s.setHost ms).windowSize = s.windowSize := rfl
@[simp] theorem receive_windowSize (v : PortValue) : (s.receive v).windowSize = s.windowSize := rfl
@[simp] theorem memWrite_windowSize (b : Buf) (i : Nat) (vs : List Int) : (s.memWrite b i vs).windowSize = s.windowSize := by simp [State.windowSize]
@[simp] theorem writeElem_windowSize (b : Buf) (i : Nat) (v : BitVec b.width) : (s.writeElem b i v).windowSize = s.windowSize := by simp [State.windowSize]
@[simp] theorem storeReduced_windowSize (r : List Int) : (s.storeReduced r).windowSize = s.windowSize := rfl
@[simp] theorem storePacked_windowSize (p : List Byte) : (s.storePacked p).windowSize = s.windowSize := rfl
@[simp] theorem raise_count (e : ErrCode) : (s.raise e).count = s.count := rfl
@[simp] theorem clear_count : s.clear.count = s.count := rfl
@[simp] theorem start_count (p : Phase) (c : Bool) : (s.start p c).count = s.count := rfl
@[simp] theorem advance_count (p : Phase) : (s.advance p).count = s.count := rfl
@[simp] theorem finish_count : s.finish.count = s.count := rfl
@[simp] theorem setHost_count (ms : List HostMove) : (s.setHost ms).count = s.count := rfl
@[simp] theorem receive_count (v : PortValue) : (s.receive v).count = s.count := rfl
@[simp] theorem memWrite_count (b : Buf) (i : Nat) (vs : List Int) : (s.memWrite b i vs).count = s.count := by simp [State.count]
@[simp] theorem writeElem_count (b : Buf) (i : Nat) (v : BitVec b.width) : (s.writeElem b i v).count = s.count := by simp [State.count]
@[simp] theorem storeReduced_count (r : List Int) : (s.storeReduced r).count = s.count := rfl
@[simp] theorem storePacked_count (p : List Byte) : (s.storePacked p).count = s.count := rfl
@[simp] theorem raise_reducedCount (e : ErrCode) : (s.raise e).reducedCount = s.reducedCount := rfl
@[simp] theorem clear_reducedCount : s.clear.reducedCount = s.reducedCount := rfl
@[simp] theorem start_reducedCount (p : Phase) (c : Bool) : (s.start p c).reducedCount = s.reducedCount := rfl
@[simp] theorem advance_reducedCount (p : Phase) : (s.advance p).reducedCount = s.reducedCount := rfl
@[simp] theorem finish_reducedCount : s.finish.reducedCount = s.reducedCount := rfl
@[simp] theorem setHost_reducedCount (ms : List HostMove) : (s.setHost ms).reducedCount = s.reducedCount := rfl
@[simp] theorem receive_reducedCount (v : PortValue) : (s.receive v).reducedCount = s.reducedCount := rfl
@[simp] theorem memWrite_reducedCount (b : Buf) (i : Nat) (vs : List Int) : (s.memWrite b i vs).reducedCount = s.reducedCount := by simp [State.reducedCount]
@[simp] theorem writeElem_reducedCount (b : Buf) (i : Nat) (v : BitVec b.width) : (s.writeElem b i v).reducedCount = s.reducedCount := by simp [State.reducedCount]
@[simp] theorem storePacked_reducedCount (p : List Byte) : (s.storePacked p).reducedCount = s.reducedCount := rfl

/-! ### Register writes (R142) -/

@[simp] theorem storeReg_phase (r : Reg) (v : Word) : (s.storeReg r v).phase = s.phase := by cases r <;> rfl
@[simp] theorem storeReg_err (r : Reg) (v : Word) : (s.storeReg r v).err = s.err := by cases r <;> rfl
@[simp] theorem storeReg_chain (r : Reg) (v : Word) : (s.storeReg r v).chain = s.chain := by cases r <;> rfl
@[simp] theorem storeReg_olen (r : Reg) (v : Word) : (s.storeReg r v).olen = s.olen := by cases r <;> rfl
@[simp] theorem storeReg_src (r : Reg) (v : Word) : (s.storeReg r v).src = s.src := by cases r <;> rfl
@[simp] theorem storeReg_q (r : Reg) (v : Word) : (s.storeReg r v).q = s.q := by cases r <;> rfl
@[simp] theorem storeReg_red (r : Reg) (v : Word) : (s.storeReg r v).red = s.red := by cases r <;> rfl
@[simp] theorem storeReg_rst (r : Reg) (v : Word) : (s.storeReg r v).rst = s.rst := by cases r <;> rfl
@[simp] theorem storeReg_out (r : Reg) (v : Word) : (s.storeReg r v).out = s.out := by cases r <;> rfl
@[simp] theorem storeReg_draw (r : Reg) (v : Word) : (s.storeReg r v).draw = s.draw := by cases r <;> rfl
@[simp] theorem storeReg_host (r : Reg) (v : Word) : (s.storeReg r v).host = s.host := by cases r <;> rfl
@[simp] theorem storeReg_received (r : Reg) (v : Word) : (s.storeReg r v).received = s.received := by cases r <;> rfl
@[simp] theorem storeReg_buf (r : Reg) (v : Word) (b : Buf) : (s.storeReg r v).buf b = s.buf b := by cases r <;> cases b <;> rfl
theorem storeReg_stores (v : Word) : (s.storeReg .bits v).bits = v ∧ (s.storeReg .window v).window = v ∧
    (s.storeReg .len v).len = v ∧ (s.storeReg .rlen v).rlen = v := ⟨rfl, rfl, rfl, rfl⟩

/-! ### The views under the updates that leave PHASE and ERR -/

@[simp] theorem setHost_busy (ms : List HostMove) : (s.setHost ms).busy = s.busy := rfl
@[simp] theorem receive_busy (v : PortValue) : (s.receive v).busy = s.busy := rfl
@[simp] theorem setHost_status (ms : List HostMove) : (s.setHost ms).status = s.status := rfl
@[simp] theorem receive_status (v : PortValue) : (s.receive v).status = s.status := rfl
@[simp] theorem setHost_regValue (ms : List HostMove) (r : Reg) : (s.setHost ms).regValue r = s.regValue r := by
  cases r <;> rfl
@[simp] theorem memWrite_busy (b : Buf) (i : Nat) (vs : List Int) : (s.memWrite b i vs).busy = s.busy := by
  simp [State.busy]
@[simp] theorem writeElem_busy (b : Buf) (i : Nat) (v : BitVec b.width) : (s.writeElem b i v).busy = s.busy := by
  simp [State.busy]
@[simp] theorem storeReg_busy (r : Reg) (v : Word) : (s.storeReg r v).busy = s.busy := by cases r <;> rfl

end Sys2Proof.Machine
end

