-- ==== Sys2Proof/Laws/Ops.lean ====
section
/-! SUPPORT. Reads after writes on the buffers, and that every write keeps the canonical form. -/

namespace Sys2Proof.Machine

variable (s : State)

@[simp] theorem readElem_writeElem_same (b : Buf) (i : Nat) (v : BitVec b.width) :
    (s.writeElem b i v).readElem b i = v := by
  simp [State.readElem, State.writeElem]

theorem readElem_writeElem_other {b c : Buf} {i j : Nat} (v : BitVec b.width) (h : ¬(c = b ∧ j = i)) :
    (s.writeElem b i v).readElem c j = s.readElem c j := by
  by_cases hc : c = b
  · subst hc
    have hj : j ≠ i := fun e => h ⟨rfl, e⟩
    simp [State.readElem, State.writeElem, Memory.get_set_other _ v hj]
  · exact readElem_congr (writeElem_buf_other s i v hc) (writeElem_draw s b i v) j

/-- A read inside a block write gives the pattern written there. -/
theorem readElem_memWrite (b : Buf) (i j : Nat) (vs : List Int) :
    (s.memWrite b i vs).readElem b j =
      if h : i ≤ j ∧ j < i + vs.length then BitVec.ofInt b.width (vs[j - i]'(by omega)) else s.readElem b j := by
  simp only [State.readElem, State.memWrite, buf_setBuf_same, setBuf_draw, Memory.get_setAll, List.length_map]
  by_cases h : i ≤ j ∧ j < i + vs.length
  · rw [if_pos h, dif_pos h, List.getElem?_map, List.getElem?_eq_getElem (show j - i < vs.length by omega)]
    rfl
  · rw [if_neg h, dif_neg h]

/-- A read outside a block write is as before. -/
theorem readElem_memWrite_other {b c : Buf} {i j : Nat} (vs : List Int)
    (h : c = b → j < i ∨ i + vs.length ≤ j) : (s.memWrite b i vs).readElem c j = s.readElem c j := by
  by_cases hc : c = b
  · subst hc
    have := h rfl
    rw [readElem_memWrite, dif_neg (by omega)]
  · exact readElem_congr (memWrite_buf_other s i vs hc) (memWrite_draw s b i vs) j

/-- A block write that starts at 0 changes the elements it covers and nothing else. -/
theorem memWrite_sameBut (b : Buf) (vs : List Int) (c : Buf) (i : Nat) (h : c = b → vs.length ≤ i) :
    (s.memWrite b 0 vs).readElem c i = s.readElem c i :=
  readElem_memWrite_other s vs fun hc => Or.inr (by have := h hc; omega)

@[simp] theorem memRead_length (b : Buf) (i n : Nat) : (s.memRead b i n).length = n := by simp [State.memRead]

theorem getElem_memRead {b : Buf} {i n k : Nat} (h : k < n) :
    (s.memRead b i n)[k]'(by simpa using h) = s.readInt b (i + k) := by simp [State.memRead]

theorem getElem?_memRead (b : Buf) (i n k : Nat) :
    (s.memRead b i n)[k]? = if k < n then some (s.readInt b (i + k)) else none := by
  split
  · rw [List.getElem?_eq_getElem (by simpa), getElem_memRead s ‹_›]
  · rw [List.getElem?_eq_none (by simpa using Nat.le_of_not_lt ‹_›)]

theorem readInt_inRange (b : Buf) (i : Nat) : b.inRange (s.readInt b i) := toInt_inRange b _

theorem memRead_inRange {b : Buf} {i n : Nat} {v : Int} (h : v ∈ s.memRead b i n) : b.inRange v := by
  obtain ⟨j, -, rfl⟩ := List.mem_map.1 h
  exact readInt_inRange s b _

/-- Reading back a block of values of the element type gives exactly those values: nothing wraps (R34). -/
theorem memRead_memWrite {b : Buf} {vs : List Int} (h : ∀ v ∈ vs, b.inRange v) :
    (s.memWrite b 0 vs).memRead b 0 vs.length = vs := by
  refine List.ext_getElem (by simp) fun k hk hk' => ?_
  rw [getElem_memRead _ hk', State.readInt, readElem_memWrite, dif_pos (by omega)]
  simpa using toInt_ofInt (h _ (List.getElem_mem hk'))

theorem memRead_memWrite_of_length {b : Buf} {vs : List Int} {n : Nat} (hn : vs.length = n)
    (h : ∀ v ∈ vs, b.inRange v) : (s.memWrite b 0 vs).memRead b 0 n = vs := by
  subst hn; exact memRead_memWrite s h

theorem memRead_memWrite_other {b c : Buf} (i j n : Nat) (vs : List Int) (h : c ≠ b) :
    (s.memWrite b i vs).memRead c j n = s.memRead c j n :=
  memRead_congr (memWrite_buf_other s i vs h) (memWrite_draw s b i vs) j n

/-- Every buffer is in canonical form after a block write. -/
theorem memWrite_wf (b : Buf) (i : Nat) (vs : List Int) (h : ∀ c, (s.buf c).wf = true) (c : Buf) :
    ((s.memWrite b i vs).buf c).wf = true := by
  by_cases hc : c = b
  · subst hc; simpa [State.memWrite] using Memory.wf_setAll _ i (h c)
  · rw [memWrite_buf_other s i vs hc]; exact h c

theorem writeElem_wf (b : Buf) (i : Nat) (v : BitVec b.width) (h : ∀ c, (s.buf c).wf = true) (c : Buf) :
    ((s.writeElem b i v).buf c).wf = true := by
  by_cases hc : c = b
  · subst hc; simpa [State.writeElem] using Memory.wf_set i v (h c)
  · rw [writeElem_buf_other s i v hc]; exact h c

/-- A block write inside a buffer keeps every buffer inside its index range. -/
theorem memWrite_within (b : Buf) (i : Nat) (vs : List Int) (h : ∀ c, (s.buf c).within c.capacity)
    (hb : i + vs.length ≤ b.capacity) (c : Buf) : ((s.memWrite b i vs).buf c).within c.capacity := by
  by_cases hc : c = b
  · subst hc
    rw [State.memWrite, buf_setBuf_same]
    exact Memory.within_setAll _ (h c) (by simpa using hb)
  · rw [memWrite_buf_other s i vs hc]; exact h c

theorem writeElem_within (b : Buf) (i : Nat) (v : BitVec b.width) (h : ∀ c, (s.buf c).within c.capacity)
    (hb : i < b.capacity) (c : Buf) : ((s.writeElem b i v).buf c).within c.capacity := by
  by_cases hc : c = b
  · subst hc
    rw [State.writeElem, buf_setBuf_same]
    exact Memory.within_set v (h c) hb
  · rw [writeElem_buf_other s i v hc]; exact h c

/-- Reset memory is in canonical form. -/
theorem reset_wf (b : Buf) : (State.reset.buf b).wf = true := by cases b <;> rfl

end Sys2Proof.Machine
end

