-- ==== Sys2Proof/Laws/Control.lean ====
section
/-! SUPPORT. One inversion lemma per control operation: everything it can do when it answers a next state. -/

namespace Sys2Proof.Machine

variable {s t : State}

theorem firstFailure_eq_none {cs : List Check} : firstFailure cs s = none ↔ allHold cs s = true := by
  induction cs with
  | nil => simp [firstFailure, allHold]
  | cons c cs ih =>
    simp only [firstFailure, allHold, List.all_cons, Bool.and_eq_true]
    split <;> rename_i h
    · rw [ih]; simp [allHold, h]
    · simp [h]

/-- The error found is the error of a check that fails. -/
theorem firstFailure_eq_some {cs : List Check} {e : ErrCode} (h : firstFailure cs s = some e) :
    ∃ c ∈ cs, c.holds s = false ∧ e = c.error := by
  induction cs with
  | nil => simp [firstFailure] at h
  | cons c cs ih =>
    simp only [firstFailure] at h
    split at h <;> rename_i hc
    · obtain ⟨d, hd, h1, h2⟩ := ih h; exact ⟨d, List.mem_cons_of_mem _ hd, h1, h2⟩
    · exact ⟨c, List.mem_cons_self, by simpa using hc, by simpa using h.symm⟩

theorem onCommand_cases {f g : State → State} (h : onCommand f g s = .next t) :
    (s.phase = .failed ∧ t = f s) ∨ ((s.phase = .idle ∨ s.phase = .done) ∧ t = g s) := by
  revert h
  cases hp : s.phase <;> simp [onCommand, hp, eq_comm]

theorem onCommand_atRest {f g : State → State} (h : s.phase = .idle ∨ s.phase = .done) :
    onCommand f g s = .next (g s) := by
  rcases h with h | h <;> simp [onCommand, h]

theorem onCommand_failed {f g : State → State} (h : s.phase = .failed) : onCommand f g s = .next (f s) := by
  simp [onCommand, h]

theorem onCommand_busy {f g : State → State} (h : s.busy = true) : onCommand f g s = .refused .accessWhileBusy := by
  revert h
  cases hp : s.phase <;> simp [onCommand, State.busy, Phase.busy, hp]

theorem checkAndStart_cases {cs : List Check} {p : Phase} {c : Bool} :
    (∃ e, firstFailure cs s = some e ∧ checkAndStart cs p c s = s.raise e) ∨
    (allHold cs s = true ∧ checkAndStart cs p c s = s.start p c) := by
  unfold checkAndStart
  cases h : firstFailure cs s with
  | some e => exact .inl ⟨e, rfl, rfl⟩
  | none => exact .inr ⟨firstFailure_eq_none.1 h, rfl⟩

theorem checkAndStart_of_allHold {cs : List Check} {p : Phase} {c : Bool} (h : allHold cs s = true) :
    checkAndStart cs p c s = s.start p c := by
  simp [checkAndStart, firstFailure_eq_none.2 h]

/-- Everything a command other than CLR can do: ignored in FAILED, failed at a check, or accepted (R135). -/
theorem issue_cases {cs : List Check} {p : Phase} {c : Bool} (h : issue cs p c s = .next t) :
    (s.phase = .failed ∧ t = s) ∨
    ((s.phase = .idle ∨ s.phase = .done) ∧ ∃ e, firstFailure cs s = some e ∧ t = s.raise e) ∨
    ((s.phase = .idle ∨ s.phase = .done) ∧ allHold cs s = true ∧ t = s.start p c) := by
  rcases onCommand_cases h with ⟨hp, rfl⟩ | ⟨hp, rfl⟩
  · exact .inl ⟨hp, rfl⟩
  · rcases checkAndStart_cases (s := s) (cs := cs) (p := p) (c := c) with ⟨e, he, ht⟩ | ⟨ha, ht⟩
    · exact .inr (.inl ⟨hp, e, he, ht⟩)
    · exact .inr (.inr ⟨hp, ha, ht⟩)

theorem issue_accepted {cs : List Check} {p : Phase} {c : Bool} (hp : s.phase = .idle ∨ s.phase = .done)
    (h : allHold cs s = true) : issue cs p c s = .next (s.start p c) := by
  rw [issue, onCommand_atRest hp, checkAndStart_of_allHold h]

theorem issue_rejected {cs : List Check} {p : Phase} {c : Bool} {e : ErrCode}
    (hp : s.phase = .idle ∨ s.phase = .done) (h : firstFailure cs s = some e) :
    issue cs p c s = .next (s.raise e) := by
  rw [issue, onCommand_atRest hp, checkAndStart, h]

theorem runStage_cases {cs : List Check} {f : State → State} (h : runStage cs f s = .next t) :
    allHold cs s = true ∧ t = f s := by
  unfold runStage at h
  split at h
  · exact ⟨‹_›, by simpa using h.symm⟩
  · exact absurd h (by simp)

theorem runStage_of_allHold {cs : List Check} {f : State → State} (h : allHold cs s = true) :
    runStage cs f s = .next (f s) := by simp [runStage, h]

/-- The checks of each command and the stage it starts, as one table (R135, R153). -/
theorem exec_cases {i : Instr} (h : exec i s = .next t) :
    (i = .clr ∧ s.busy = false ∧ t = s.clear) ∨
    (i ≠ .clr ∧ s.phase = .failed ∧ t = s) ∨
    (i ≠ .clr ∧ (s.phase = .idle ∨ s.phase = .done) ∧ ∃ c : Check, c.holds s = false ∧ t = s.raise c.error) ∨
    ((s.phase = .idle ∨ s.phase = .done) ∧
      ((i = .quant ∧ allHold quantChecks s = true ∧ t = s.start .quantizing false) ∨
       (i = .reduce ∧ allHold reduceChecks s = true ∧ t = s.start .reducing false) ∨
       (i = .restore ∧ allHold restoreChecks s = true ∧ t = s.start .restoring false) ∨
       (i = .pack ∧ allHold packChecks s = true ∧ t = s.start .clamping false) ∨
       (i = .run ∧ allHold runChecks s = true ∧ t = s.start .quantizing true))) := by
  have key : ∀ {cs p c}, i ≠ .clr → issue cs p c s = .next t →
      (i ≠ .clr ∧ s.phase = .failed ∧ t = s) ∨
      (i ≠ .clr ∧ (s.phase = .idle ∨ s.phase = .done) ∧ ∃ c : Check, c.holds s = false ∧ t = s.raise c.error) ∨
      ((s.phase = .idle ∨ s.phase = .done) ∧ allHold cs s = true ∧ t = s.start p c) := by
    intro cs p c hi h
    rcases issue_cases h with ⟨hp, ht⟩ | ⟨hp, e, he, ht⟩ | ⟨hp, ha, ht⟩
    · exact .inl ⟨hi, hp, ht⟩
    · obtain ⟨d, -, hd, rfl⟩ := firstFailure_eq_some he
      exact .inr (.inl ⟨hi, hp, d, hd, ht⟩)
    · exact .inr (.inr ⟨hp, ha, ht⟩)
  cases i with
  | clr =>
    refine .inl ⟨rfl, ?_⟩
    rcases onCommand_cases (show onCommand _ _ s = .next t from h) with ⟨hp, ht⟩ | ⟨hp | hp, ht⟩ <;>
      exact ⟨by simp [State.busy, Phase.busy, hp], ht⟩
  | quant => rcases key (by simp) h with h | h | ⟨hp, h⟩ <;> simp_all
  | reduce => rcases key (by simp) h with h | h | ⟨hp, h⟩ <;> simp_all
  | restore => rcases key (by simp) h with h | h | ⟨hp, h⟩ <;> simp_all
  | pack => rcases key (by simp) h with h | h | ⟨hp, h⟩ <;> simp_all
  | run => rcases key (by simp) h with h | h | ⟨hp, h⟩ <;> simp_all

/-- Everything SEQ's turn can do (R136). -/
theorem seqTurn_cases (h : seqTurn s = .next t) :
    (s.busy = false ∧ t = s) ∨
    (s.phase = .quantizing ∧ allHold quantChecks s = true ∧ t = quantizeEffect s) ∨
    (s.phase = .reducing ∧ allHold reduceChecks s = true ∧ t = reduceEffect s) ∨
    (s.phase = .restoring ∧ allHold restoreDomain s = true ∧ t = restoreEffect s) ∨
    (s.phase = .clamping ∧ allHold packChecks s = true ∧ t = packEffect s) := by
  revert h
  cases hp : s.phase <;> intro h <;> simp only [seqTurn, hp] at h
  case quantizing => exact .inr (.inl ⟨rfl, runStage_cases h⟩)
  case reducing => exact .inr (.inr (.inl ⟨rfl, runStage_cases h⟩))
  case restoring => exact .inr (.inr (.inr (.inl ⟨rfl, runStage_cases h⟩)))
  case clamping => exact .inr (.inr (.inr (.inr ⟨rfl, runStage_cases h⟩)))
  all_goals exact .inl ⟨by simp [State.busy, Phase.busy, hp], by simpa using h.symm⟩

theorem whenNotBusy_cases {r : Result} (h : whenNotBusy s r = .next t) : s.busy = false ∧ r = .next t := by
  unfold whenNotBusy at h
  split at h <;> rename_i hb
  · exact absurd h (by simp)
  · exact ⟨by simpa using hb, h⟩

/-- Everything a HOST access can do when it has a meaning (R141 to R145). -/
theorem hostAccess_cases {a : HostAction} (h : hostAccess a s = .next t) :
    (a = .reset ∧ t = s.resetBlock) ∨
    (∃ i r, a = .regRead i ∧ Reg.ofIndex i = some r ∧ (s.busy = true → r.readableWhileBusy = true) ∧
      t = s.receive (.reg r (s.regValue r))) ∨
    (∃ v, a = .regWrite 0 v ∧ writeCommand v s = .next t) ∨
    (∃ i v r, a = .regWrite i v ∧ Reg.ofIndex i = some r ∧ r ≠ .cmd ∧ s.busy = false ∧ t = s.storeReg r v) ∨
    (∃ b i, a = .bufRead b i ∧ i < b.capacity ∧ s.busy = false ∧ t = s.receive (.elem b (s.readElem b i))) ∨
    (∃ b i v, a = .bufWrite b i v ∧ i < b.capacity ∧ s.busy = false ∧
      t = if b.hostWritable then s.writeElem b i v else s) := by
  cases a with
  | reset => exact .inl ⟨rfl, by simpa [hostAccess] using h.symm⟩
  | regRead i =>
    refine .inr (.inl ?_)
    simp only [hostAccess, regRead] at h
    split at h
    · exact absurd h (by simp)
    · rename_i r hr
      refine ⟨i, r, rfl, hr, ?_⟩
      split at h <;> rename_i hb
      · exact ⟨fun _ => hb, by simpa using h.symm⟩
      · obtain ⟨h1, h2⟩ := whenNotBusy_cases h
        exact ⟨fun h' => absurd h' (by simp [h1]), by simpa using h2.symm⟩
  | regWrite i v =>
    simp only [hostAccess, regWrite] at h
    split at h
    · exact absurd h (by simp)
    · rename_i hr
      refine .inr (.inr (.inl ⟨v, ?_, h⟩))
      revert hr
      unfold Reg.ofIndex
      split <;> simp
    all_goals
      obtain ⟨h1, h2⟩ := whenNotBusy_cases h
      exact .inr (.inr (.inr (.inl ⟨i, v, _, rfl, ‹_›, by simp, h1, by simpa using h2.symm⟩)))
  | bufRead b i =>
    simp only [hostAccess, bufRead] at h
    split at h <;> rename_i hi
    · obtain ⟨h1, h2⟩ := whenNotBusy_cases h
      exact .inr (.inr (.inr (.inr (.inl ⟨b, i, rfl, by simpa [legalElemIndex] using hi, h1, by simpa using h2.symm⟩))))
    · exact absurd h (by simp)
  | bufWrite b i v =>
    simp only [hostAccess, bufWrite] at h
    split at h <;> rename_i hi
    · obtain ⟨h1, h2⟩ := whenNotBusy_cases h
      refine .inr (.inr (.inr (.inr (.inr ⟨b, i, v, rfl, by simpa [legalElemIndex] using hi, h1, ?_⟩))))
      simpa using h2.symm
    · exact absurd h (by simp)

/-- A word written to CMD: a decoded command, or the illegal word's effect. -/
theorem writeCommand_cases {c : Word} (h : writeCommand c s = .next t) :
    (∃ i, decode c = .ok i ∧ exec i s = .next t) ∨
    ((∃ e, decode c = .error e) ∧
      ((s.phase = .failed ∧ t = s) ∨ ((s.phase = .idle ∨ s.phase = .done) ∧ t = s.raise .illegalCommand))) := by
  unfold writeCommand at h
  split at h
  · exact .inl ⟨_, ‹_›, h⟩
  · exact .inr ⟨⟨_, ‹_›⟩, onCommand_cases h⟩

/-- Everything a step can do: SEQ's turn, one HOST access, or one poll. -/
theorem step_cases (h : step s = .next t) :
    (s.host = [] ∧ seqTurn s = .next t) ∨
    (∃ rest, s.host = .pause :: rest ∧ seqTurn (s.setHost rest) = .next t) ∨
    (∃ rest, s.host = .wait :: rest ∧ t = pollStatus (s.setHost rest)) ∨
    (∃ a rest, s.host = .access a :: rest ∧ hostAccess a (s.setHost rest) = .next t) := by
  unfold step at h
  split at h
  · exact .inl ⟨‹_›, h⟩
  · exact .inr (.inr (.inr ⟨_, _, ‹_›, h⟩))
  · exact .inr (.inl ⟨_, ‹_›, h⟩)
  · exact .inr (.inr (.inl ⟨_, ‹_›, by simpa using h.symm⟩))

theorem core_run_zero (s : State) : core.run 0 s = .next s := rfl

/-- A run of k + 1 steps whose first step answers a next state. -/
theorem core_run_succ {k : Nat} (h : step s = .next t) : core.run (k + 1) s = core.run k t := by
  have hs : core.step s = .next t := h
  simp only [Host.Core.run, hs]

/-- SEQ's turn leaves HOST's moves alone. -/
theorem seqTurn_host (h : seqTurn s = .next t) : t.host = s.host := by
  rcases seqTurn_cases h with ⟨-, rfl⟩ | ⟨-, -, rfl⟩ | ⟨-, -, rfl⟩ | ⟨-, -, rfl⟩ | ⟨-, -, rfl⟩ <;>
    simp [quantizeEffect, reduceEffect, restoreEffect, packEffect]

end Sys2Proof.Machine
end

