-- ==== Sys2Proof/Laws/PerInstr.lean ====
section
/-! SUPPORT. Facts about each command as syntax, one lemma per constructor. -/

namespace Sys2Proof.Laws.EncodingShape

/-- R71, R72: a command's word has field ZERO clear and its own opcode, 1 to 6, in OPC; the term is well formed. -/
def Statement (i : Instr) : Prop :=
  zeroField (encode i) = 0#24 ∧ opcField (encode i) = opcode i ∧ 1 ≤ (opcode i).toNat ∧ (opcode i).toNat ≤ 6 ∧
    i.wellFormed = true

theorem quant : Statement .quant := by unfold Statement; decide
theorem reduce : Statement .reduce := by unfold Statement; decide
theorem restore : Statement .restore := by unfold Statement; decide
theorem pack : Statement .pack := by unfold Statement; decide
theorem run : Statement .run := by unfold Statement; decide
theorem clr : Statement .clr := by unfold Statement; decide

end Sys2Proof.Laws.EncodingShape
end

