-- ==== Sys2Proof/Tests/Slice0.lean ====
section
/-! SUPPORT. The model's own tests, on values worked out in spec/95_test_vectors.md and the worked examples of the
command rules, and for every statement a state that meets its hypotheses. -/

namespace Sys2Proof.Tests

open Sys2Proof.Machine

/-! ### Helpers -/

/-- A state with the operand registers given and nothing written. -/
def regs (p : Phase) (bits window len rlen : Nat) : State :=
  { State.reset with
    phase := p, bits := BitVec.ofNat 32 bits, window := BitVec.ofNat 32 window, len := BitVec.ofNat 32 len,
    rlen := BitVec.ofNat 32 rlen }

/-- Storage that holds integers from index 0 on. -/
def holding (n : Nat) (vs : List Int) : Memory n := Memory.setAll [] 0 (vs.map (BitVec.ofInt n))

/-- The state a step answers, if it answers one. -/
def stateOf : Result → Option State
  | .next s => some s
  | .fault _ => none
  | .refused _ => none

/-- A HOST write to CMD as the next move. -/
def commanding (s : State) (c : Word) : State := s.setHost [.access (.regWrite 0 c)]

/-! ### Decoding: words from R72, R74 and 95_test_vectors.md 2.7 -/

theorem test_decode_quant : decodeTableWord 32 0x00000001 = some .quant := by decide
theorem test_decode_reduce : decodeTableWord 32 0x00000002 = some .reduce := by decide
theorem test_decode_restore : decodeTableWord 32 0x00000003 = some .restore := by decide
theorem test_decode_pack : decodeTableWord 32 0x00000004 = some .pack := by decide
theorem test_decode_run : decodeTableWord 32 0x00000005 = some .run := by decide
theorem test_decode_clr : decodeTableWord 32 0x00000006 = some .clr := by decide
theorem test_decode_illegal :
    [0x00000000, 0x00000007, 0x000000FF, 0x00000101, 0x80000005].map (decodeTableWord 32) =
      [none, none, none, none, none] := by decide

/-- The command word is the first thing that runs after reset. -/
theorem test_fetch_quant :
    step (State.reset.withFetchWord 32 1) = .next { State.reset with phase := .quantizing } := rfl
theorem test_fetch_reduce :
    step (State.reset.withFetchWord 32 2) = .next { State.reset with phase := .reducing } := rfl
theorem test_fetch_restore :
    step (State.reset.withFetchWord 32 3) = .next { State.reset with phase := .restoring } := rfl
theorem test_fetch_pack :
    step (State.reset.withFetchWord 32 4) = .next { State.reset with phase := .clamping } := rfl
theorem test_fetch_run :
    step (State.reset.withFetchWord 32 5) = .next { State.reset with phase := .quantizing, chain := true } := rfl
theorem test_fetch_clr : step (State.reset.withFetchWord 32 6) = .next State.reset := rfl

/-! ### Well-formedness: an ill-formed term for each check -/

theorem test_wf_regRead : (HostAction.regRead 6).wellFormed = true ∧ (HostAction.regRead 7).wellFormed = false := by
  decide
theorem test_wf_regWrite :
    (HostAction.regWrite 6 0#32).wellFormed = true ∧ (HostAction.regWrite 7 0#32).wellFormed = false := by decide
theorem test_wf_bufRead : (HostAction.bufRead .src Config.nmax).wellFormed = false := by
  simp [HostAction.wellFormed, legalElemIndex, Buf.capacity]
theorem test_wf_bufWrite : (HostAction.bufWrite .out (2 * Config.nmax) 0#8).wellFormed = false := by
  simp [HostAction.wellFormed, legalElemIndex, Buf.capacity]

/-! ### The units: 95_test_vectors.md 2.1 to 2.6 -/

theorem test_quantize_one :
    [quantizeOne (-4097) 8, quantizeOne (-255) 8, quantizeOne (-32768) 1, quantizeOne 4095 12, quantizeOne 32767 15,
      quantizeOne (-4097) 4] = [-17, -1, -1, 255, 16383, -2] := by decide
theorem test_quantize_clamps :
    [quantizeOne 40000 8, quantizeOne (-40000) 8, quantizeOne 32768 16, quantizeOne (-65537) 1,
      quantizeOne 1000000 12] = [127, -128, 32767, -1, 2047] := by decide
theorem test_reduce_first_found :
    reduce [5, 7, 7, 5, 9, 9, 5, 7] 3 = [5, 5, 5] ∧ reduce [3, 3, 4, 4, 4, 3, 2, 2, 2, 2, 9] 4 = [3, 2, 2] := by decide
theorem test_reduce_ties :
    reduce [-5, 6, 6, -5] 4 = [-5] ∧ reduce [6, -5, -5, 6] 4 = [6] ∧ reduce [1, 2, 3, 4, 5] 7 = [1] := by decide
theorem test_restore_pads_and_truncates :
    restore [1, -2] 8 8 3 = [256, 256, 256, -512, -512, -512, 0, 0] ∧
    restore [1, -2, 3] 7 8 3 = [256, 256, 256, -512, -512, -512, 768] ∧
    restore [32767, -32768] 2 1 1 = [1073709056, -1073741824] := by decide
theorem test_pack_bytes :
    clampAndPack [-256, 12345, 32768, -32769, 51200, -2147483648] =
      [0x00, 0xFF, 0x39, 0x30, 0xFF, 0x7F, 0x00, 0x80, 0xFF, 0x7F, 0x00, 0x80] := by decide
theorem test_decode_samples :
    decodeSamples [0x00, 0x30, 0x00, 0xD0] 2 = .ok [12288, -12288] ∧
    decodeSamples [0x00, 0x7F, 0x80, 0xFF] 1 = .ok [-128, -1, 0, 127] := ⟨rfl, rfl⟩

/-- R130: a width-1 sample quantizes at the default depth to −1 or 0. -/
theorem test_width_one_samples : [quantizeOne (0 - 128) 8, quantizeOne (127 - 128) 8, quantizeOne (255 - 128) 8] =
    [-1, -1, 0] := by decide

/-! ### One stage each, on the worked examples of R92, R104, R114, R124 -/

/-- Scenario A. -/
theorem test_stage_quantize :
    (quantizeEffect { regs .quantizing 8 3 8 0 with
      src := holding 16 [100, 100, 105, 3000, 100, 100, -50, 40] }).memRead .q 0 8 = [0, 0, 0, 11, 0, 0, -1, 0] := by
  decide
/-- Scenario B, first half, inside a RUN. -/
theorem test_stage_reduce :
    let t := reduceEffect { regs .reducing 8 3 8 0 with
      chain := true, q := holding 16 [0, 0, 0, 11, 0, 0, -1, 0] }
    t.memRead .red 0 3 = [0, 0, 0] ∧ t.rlen = 3#32 ∧ t.phase = .restoring := by decide
/-- 95_test_vectors.md 2.5, values outside the 8-bit range. -/
theorem test_stage_restore :
    (restoreEffect { regs .restoring 8 1 6 4 with red := holding 16 [200, -200, 127, -128] }).memRead .rst 0 6 =
      [51200, -51200, 32512, -32768, 0, 0] := by decide
/-- Script P3. -/
theorem test_stage_pack :
    let t := packEffect { regs .clamping 8 1 6 4 with rst := holding 32 [51200, -51200, 32512, -32768, 0, 0] }
    t.memRead .out 0 12 = [0xFF, 0x7F, 0x00, 0x80, 0x00, 0x7F, 0x00, 0x80, 0, 0, 0, 0] ∧ t.olen = 12#32 := by decide

/-! ### Errors: 95_test_vectors.md 2.7 and script P4 -/

theorem test_bad_window_fails :
    (stateOf (step (commanding (regs .idle 8 0 7 0) 5#32))).map (fun t => (t.status, t.window)) =
      some (0x326#32, 0#32) := by decide
theorem test_failed_ignores_illegal :
    let s := { regs .failed 8 0 7 0 with err := .badWindow }
    (stateOf (step (commanding s 0#32))).map State.status = some 0x326#32 := by decide
theorem test_clr_recovers :
    let s := { regs .failed 8 0 7 0 with err := .badWindow }
    (stateOf (step (commanding s 6#32))).map State.status = some 0#32 := by decide
theorem test_zero_word_fails :
    (stateOf (step (commanding State.reset 0#32))).map State.status = some 0x126#32 := by decide
theorem test_bits_before_window :
    (stateOf (step (commanding (regs .done 0 0 0 0) 3#32))).map State.status = some 0x226#32 := by decide

/-! ### A state for the hypotheses of every statement that has some -/

theorem len_one (p : Phase) (b w r : Nat) : (regs p b w 1 r).count ≤ Config.nmax := one_le_nmax
theorem len_big (p : Phase) (b w r : Nat) : Config.nmax < (regs p b w 0xFFFFFFFF r).count := by
  have := nmax_lt
  show Config.nmax < 4294967295
  omega
theorem rlen_one (p : Phase) (b w l : Nat) : (regs p b w l 1).reducedCount ≤ Config.nmax := one_le_nmax
theorem rlen_big (p : Phase) (b w l : Nat) : Config.nmax < (regs p b w l 0xFFFFFFFF).reducedCount := by
  have := nmax_lt
  show Config.nmax < 4294967295
  omega

/-- Of the clauses of StagesAdvancePhaseAndNeverFail: every stage, with CHAIN 0 and 1, in a state that meets Inv. -/
theorem witness_StagesAdvancePhaseAndNeverFail (p : Phase) (hp : p.busy = true) (c : Bool) :
    ({ regs p 16 1 1 0 with chain := c } : State).Inv where
  wf := fun b => by cases b <;> rfl
  within := fun b e he => by cases b <;> exact absurd he List.not_mem_nil
  err_none_iff := by cases p <;> first | exact absurd hp (by decide) | exact ⟨fun _ => Phase.noConfusion, fun _ => rfl⟩
  err_reachable := ErrCode.noConfusion
  ready := by
    cases p <;> first
      | exact absurd hp (by decide)
      | simp [State.stageReady, allHold, quantChecks, reduceChecks, restoreChecks, packChecks, runChecks, Check.holds,
          State.depth, State.windowSize, State.count, State.reducedCount, regs, one_le_nmax]
  olen_even := ⟨0, Nat.zero_le _, rfl⟩
/-- A BUSY state that meets the invariant: QUANTIZING one sample inside a RUN. -/
theorem busy_inv : ({ regs .quantizing 16 1 1 0 with chain := true } : State).Inv :=
  witness_StagesAdvancePhaseAndNeverFail .quantizing rfl true

/-- A state at rest that meets the invariant. -/
theorem rest_inv : ({ State.reset with phase := .done } : State).Inv where
  wf := fun b => by cases b <;> rfl
  within := fun b e he => by cases b <;> exact absurd he List.not_mem_nil
  err_none_iff := by decide
  err_reachable := by decide
  ready := rfl
  olen_even := ⟨0, Nat.zero_le _, rfl⟩

theorem witness_StepRunsTheDecodedCommand :
    (commanding State.reset 5#32).host = .access (.regWrite 0 5#32) :: [] ∧ decode 5#32 = .ok .run := by decide
theorem witness_StepIsSeqsTurnWhenHostPauses :
    State.reset.host = [] ∧ (State.reset.setHost [.pause, .wait]).host = .pause :: [.wait] := by decide
theorem witness_IllegalWordsFailTheBlock :
    (commanding State.reset 7#32).host = .access (.regWrite 0 7#32) :: [] ∧ 7 ≤ (7#32 : Word).toNat ∧
    (commanding State.reset 7#32).phase = .idle ∧
    (commanding (regs .failed 8 3 0 0) 0#32).host = .access (.regWrite 0 0#32) :: [] ∧ (0#32 : Word).toNat = 0 ∧
    (commanding (regs .failed 8 3 0 0) 0#32).phase = .failed := by decide
theorem witness_AccessHasAStepExactlyWhereItHasAMeaning :
    HostAction.hasMeaning State.reset (.regRead 6) ∧ ¬HostAction.hasMeaning State.reset (.regRead 7) ∧
    HostAction.hasMeaning (regs .clamping 8 3 0 0) (.regRead 1) ∧
    ¬HostAction.hasMeaning (regs .clamping 8 3 0 0) (.regRead 2) ∧
    HostAction.hasMeaning State.reset (.regWrite 6 0#32) ∧
    ¬HostAction.hasMeaning (regs .clamping 8 3 0 0) (.regWrite 0 6#32) ∧
    HostAction.hasMeaning State.reset (.bufRead .src 0) ∧
    ¬HostAction.hasMeaning State.reset (.bufRead .src Config.nmax) ∧
    HostAction.hasMeaning State.reset (.bufWrite .out (2 * Config.nmax - 1) 0#8) ∧
    ¬HostAction.hasMeaning State.reset (.bufWrite .out (2 * Config.nmax) 0#8) ∧
    HostAction.hasMeaning (regs .clamping 8 3 0 0) .reset := by
  have := one_le_nmax
  have reg : HostAction.hasMeaning State.reset (.regRead 6) ∧ ¬HostAction.hasMeaning State.reset (.regRead 7) ∧
      HostAction.hasMeaning (regs .clamping 8 3 0 0) (.regRead 1) ∧
      ¬HostAction.hasMeaning (regs .clamping 8 3 0 0) (.regRead 2) ∧
      HostAction.hasMeaning State.reset (.regWrite 6 0#32) ∧
      ¬HostAction.hasMeaning (regs .clamping 8 3 0 0) (.regWrite 0 6#32) := by
    unfold HostAction.hasMeaning; decide
  refine ⟨reg.1, reg.2.1, reg.2.2.1, reg.2.2.2.1, reg.2.2.2.2.1, reg.2.2.2.2.2, ⟨?_, by decide⟩, ?_,
    ⟨?_, by decide⟩, ?_, trivial⟩
  · show 0 < Config.nmax; omega
  · rintro ⟨h, -⟩; exact absurd h (Nat.lt_irrefl _)
  · show 2 * Config.nmax - 1 < 2 * Config.nmax; omega
  · rintro ⟨h, -⟩; exact absurd h (Nat.lt_irrefl _)
theorem witness_RegReadReturnsTheRegister :
    ((regs .clamping 8 3 0 0).setHost [.access (.regRead 1)]).host = .access (.regRead 1) :: [] ∧
    (State.reset.setHost [.access (.regRead 6)]).host = .access (.regRead 6) :: [] ∧ State.reset.busy = false ∧
    (regs .clamping 8 3 0 0).busy = true := by decide
theorem witness_RegWriteStoresWholeAndUnchecked :
    (State.reset.setHost [.access (.regWrite 2 99#32)]).host = .access (.regWrite 2 99#32) :: [] ∧
    State.reset.busy = false ∧ (regs .reducing 8 3 0 0).busy = true ∧
    (commanding State.reset 1#32).host = .access (.regWrite 0 1#32) :: [] ∧ decode 1#32 = .ok .quant := by decide
theorem witness_BufReadReturnsTheElement :
    0 < Buf.rst.capacity ∧ (State.reset.setHost [.access (.bufRead .rst 0)]).host = .access (.bufRead .rst 0) :: [] ∧
    State.reset.busy = false ∧ (regs .reducing 8 3 0 0).busy = true :=
  ⟨one_le_nmax, rfl, rfl, rfl⟩
theorem witness_BufWriteStoresOneElement :
    0 < Buf.q.capacity ∧ Buf.q ≠ .out ∧ 1 < Buf.out.capacity ∧
    (State.reset.setHost [.access (.bufWrite .q 0 0xFFFF#16)]).host = .access (.bufWrite .q 0 0xFFFF#16) :: [] ∧
    State.reset.busy = false ∧ (regs .reducing 8 3 0 0).busy = true := by
  have := one_le_nmax
  refine ⟨this, by decide, ?_, rfl, rfl, rfl⟩
  show 1 < 2 * Config.nmax; omega
theorem witness_StatusIsAViewOfPhaseAndErr : ∃ s : State, s.Inv := ⟨_, busy_inv⟩
theorem witness_ResetWorksInEveryPhase :
    ((regs .restoring 8 3 1 1).setHost [.access .reset]).host = .access .reset :: [] := by decide

/-- The depth hypotheses of the quantizer's and the restorer's statements, at both ends, and InS16 at both ends. -/
theorem witness_depths : (1 ≤ 1 ∧ 1 ≤ 16) ∧ (1 ≤ 16 ∧ 16 ≤ 16) ∧ 1 ≤ 3 ∧ InS16 (-32768) ∧ InS16 32767 := by decide
/-- Of the statements QuantizeFacts and EncodeIsLittleEndian: an ordered pair and both signs. -/
theorem witness_QuantizeFacts : (-50 : Int) ≤ 40 ∧ InS16 (-50) ∧ (-50 : Int) < 0 ∧ InS16 0 ∧ ¬(0 : Int) < 0 := by decide

/-- The stage hypotheses of QuantCommand, ReduceCommand, RestoreCommand and PackCommand. -/
theorem witness_stages :
    (regs .quantizing 16 1 1 1).phase = .quantizing ∧ (regs .reducing 16 1 1 1).phase = .reducing ∧
    (regs .restoring 16 1 1 1).phase = .restoring ∧ (regs .clamping 16 1 1 1).phase = .clamping ∧
    ∀ p, (1 ≤ (regs p 16 1 1 1).depth ∧ (regs p 16 1 1 1).depth ≤ 16) ∧ 1 ≤ (regs p 16 1 1 1).windowSize ∧
      (regs p 16 1 1 1).count ≤ Config.nmax :=
  ⟨rfl, rfl, rfl, rfl, fun p => ⟨by cases p <;> decide, by cases p <;> decide, len_one ..⟩⟩

theorem witness_QuantCommand :
    ((regs .done 16 0 1 0).phase = .idle ∨ (regs .done 16 0 1 0).phase = .done) ∧
    (1 ≤ (regs .done 16 0 1 0).depth ∧ (regs .done 16 0 1 0).depth ≤ 16) ∧ (regs .done 16 0 1 0).count ≤ Config.nmax ∧
    ¬(1 ≤ (regs .idle 17 0 1 0).depth ∧ (regs .idle 17 0 1 0).depth ≤ 16) ∧
    Config.nmax < (regs .idle 1 0 0xFFFFFFFF 0).count :=
  ⟨by decide, by decide, len_one .., by decide, len_big ..⟩
theorem witness_FrequencyMapCountsTheWholeSequence :
    (3 : Int) ∉ [1, 2] ∧ ([1, 2, 2] : List Int).Perm [2, 1, 2] := by decide
theorem witness_WindowsPartitionTheSequence :
    1 ≤ 3 ∧ 1 < ceildiv 8 3 ∧ 1 + 1 < ceildiv 8 3 ∧ 2 + 1 = ceildiv 8 3 ∧ ceildiv 0 3 = 0 := by decide
theorem witness_RepresentativeIsTheFirstOfHighestCount : ([11, 0, 0] : List Int) ≠ [] := by decide
theorem witness_ReduceKeepsOnePerWindow : 1 ≤ 3 ∧ 2 < ceildiv 8 3 := by decide
theorem witness_ReduceFacts :
    (1 ≤ 3 ∧ 1 < ceildiv [0, 0, 0, 11, 0, 0, -1, 0].length 3) ∧
    (1 ≤ ([5, 5, 6] : List Int).length ∧ ([5, 5, 6] : List Int).length ≤ 3) ∧
    ((0 : Int) ∈ windowAt [0, 0, 0, 11, 0, 0, -1, 0] 3 1 ∧
      ∀ u ∈ windowAt [0, 0, 0, 11, 0, 0, -1, 0] 3 1, u ≠ 0 →
        freq [0, 0, 0, 11, 0, 0, -1, 0] u < freq [0, 0, 0, 11, 0, 0, -1, 0] 0) ∧
    (∀ u ∈ windowAt [1, 2, 3, 4, 5] 2 1, ∀ v ∈ windowAt [1, 2, 3, 4, 5] 2 1,
      freq [1, 2, 3, 4, 5] u = freq [1, 2, 3, 4, 5] v) := by decide
theorem witness_ReduceCommand :
    ((regs .done 99 1 1 0).phase = .idle ∨ (regs .done 99 1 1 0).phase = .done) ∧
    1 ≤ (regs .done 99 1 1 0).windowSize ∧ (regs .done 99 1 1 0).count ≤ Config.nmax ∧
    ¬1 ≤ (regs .idle 8 0 1 0).windowSize ∧ 1 ≤ (regs .idle 8 0xFFFFFFFF 0xFFFFFFFF 0).windowSize ∧
    Config.nmax < (regs .idle 8 0xFFFFFFFF 0xFFFFFFFF 0).count :=
  ⟨by decide, by decide, len_one .., by decide, by decide, len_big ..⟩
theorem witness_ReduceDependsOnItsInputsAlone :
    ∃ s t : State, s ≠ t ∧ s.phase = .reducing ∧ t.phase = .reducing ∧ 1 ≤ s.windowSize ∧ s.count ≤ Config.nmax ∧
      t.window = s.window ∧ t.len = s.len ∧ ∀ i, i < s.count → t.readElem .q i = s.readElem .q i :=
  ⟨regs .reducing 8 3 1 0, regs .reducing 5 3 1 7, by decide, rfl, rfl, by decide, one_le_nmax, rfl, rfl,
    fun _ _ => rfl⟩
/-- Of RestoreIsExpansionForcedToLength and RestoreAfterReduceNeverPads: an index inside the expansion. -/
theorem witness_RestoreIsExpansionForcedToLength :
    idiv 5 3 < ([1, -2] : List Int).length ∧ ([1, -2] : List Int).length ≤ idiv 6 3 ∧
    7 < ([0, 0, 0, 11, 0, 0, -1, 0] : List Int).length := by decide
theorem witness_RestoredValuesAreBounded :
    (∀ v ∈ ([-32768, 32767] : List Int), InS16 v) ∧
    (∀ v ∈ ([-128, 127] : List Int), -(2 ^ (8 - 1)) ≤ v ∧ v ≤ 2 ^ (8 - 1) - 1) ∧
    (127 * 256 : Int) ∈ restore [-128, 127] 2 8 1 := by decide
theorem witness_RestoreCommand :
    ((regs .done 8 3 1 1).phase = .idle ∨ (regs .done 8 3 1 1).phase = .done) ∧
    (1 ≤ (regs .done 8 3 1 1).depth ∧ (regs .done 8 3 1 1).depth ≤ 16) ∧ 1 ≤ (regs .done 8 3 1 1).windowSize ∧
    (regs .done 8 3 1 1).count ≤ Config.nmax ∧ (regs .done 8 3 1 1).reducedCount ≤ Config.nmax ∧
    ¬(1 ≤ (regs .idle 0 0 1 1).depth ∧ (regs .idle 0 0 1 1).depth ≤ 16) ∧ ¬1 ≤ (regs .idle 8 0 1 1).windowSize ∧
    Config.nmax < (regs .idle 8 3 0xFFFFFFFF 1).count ∧ Config.nmax < (regs .idle 8 3 1 0xFFFFFFFF).reducedCount :=
  ⟨by decide, by decide, by decide, len_one .., rlen_one .., by decide, by decide, len_big .., rlen_big ..⟩
theorem witness_ClampSixteenClips : InS16 (clamp16 51200) ∧ InS16 (clamp16 (-32769)) := by decide
theorem witness_PackErrorIsNeverRaised :
    step State.reset = .next State.reset ∧ State.reset.err ≠ .packError := ⟨rfl, by decide⟩
theorem witness_PackedPairsDecodeToTheClippedSample :
    (regs .clamping 8 3 1 0).phase = .clamping ∧ (regs .clamping 8 3 1 0).count ≤ Config.nmax ∧
    0 < (regs .clamping 8 3 1 0).count := ⟨rfl, len_one .., by decide⟩
theorem witness_PackRoundTrip :
    encodeSamples [12288, -12288] = .ok [0x00, 0x30, 0x00, 0xD0] ∧ ∀ v ∈ ([12288, -12288] : List Int), InS16 v :=
  ⟨rfl, by decide⟩
theorem witness_DecodeSamplesByWidth :
    ([0x00, 0x30] : List Byte).length % 2 = 0 ∧ 2 * 0 + 1 < ([0x00, 0x30] : List Byte).length ∧ 3 ≠ 1 ∧ 3 ≠ 2 := by
  decide
theorem witness_PackCommand :
    ((regs .done 0 0 1 0).phase = .idle ∨ (regs .done 0 0 1 0).phase = .done) ∧
    (regs .done 0 0 1 0).count ≤ Config.nmax ∧ Config.nmax < (regs .idle 0 0 0xFFFFFFFF 0).count :=
  ⟨by decide, len_one .., len_big ..⟩
/-- Of RunCommand, RunEqualsTheFourCommands, RunNeverClips and EveryResultFitsItsBuffer. -/
theorem witness_RunCommand :
    ((regs .done 8 3 1 1).phase = .idle ∨ (regs .done 8 3 1 1).phase = .done) ∧
    (1 ≤ (regs .done 8 3 1 1).depth ∧ (regs .done 8 3 1 1).depth ≤ 16) ∧ 1 ≤ (regs .done 8 3 1 1).windowSize ∧
    (regs .done 8 3 1 1).count ≤ Config.nmax ∧ 0 < (regs .done 8 3 1 1).count ∧ (regs .done 8 3 1 1).err = .none ∧
    ¬(1 ≤ (regs .idle 0 0 1 1).depth ∧ (regs .idle 0 0 1 1).depth ≤ 16) ∧ ¬1 ≤ (regs .idle 8 0 1 1).windowSize ∧
    Config.nmax < (regs .idle 8 3 0xFFFFFFFF 1).count :=
  ⟨by decide, by decide, by decide, len_one .., by decide, rfl, by decide, by decide, len_big ..⟩
theorem witness_ClrCommand :
    (regs .failed 8 3 0 0).phase = .failed ∧ State.reset.phase = .idle ∧ State.reset.err = .none ∧
    State.reset.chain = false ∧ (regs .restoring 8 3 0 0).busy = true ∧ exec .clr State.reset = .next State.reset :=
  ⟨rfl, rfl, rfl, rfl, rfl, rfl⟩
theorem witness_ChecksAreMadeInOrder : (regs .done 0 0 0 0).phase = .idle ∨ (regs .done 0 0 0 0).phase = .done := by
  decide
theorem witness_FailuresArePrecise :
    (∃ t, step (commanding State.reset 0#32) = .next t ∧ t.phase = .failed) ∧
    ∃ s : State, s.Inv ∧ s.busy = true ∧ s.host = [] :=
  ⟨⟨_, rfl, rfl⟩, _, busy_inv, rfl, rfl⟩
theorem witness_FailedIgnoresEveryWordButClr :
    (regs .failed 8 3 0 0).phase = .failed ∧ (5#32 : Word) ≠ 6#32 ∧
    (commanding (regs .failed 8 3 0 0) 5#32).host = .access (.regWrite 0 5#32) :: [] ∧
    (HostAction.regWrite 3 4#32).wellFormed = true := by decide
theorem witness_FailedIsLeftOnlyByClrOrReset :
    (∃ t, step (commanding (regs .failed 8 3 0 0) 6#32) = .next t ∧ t.phase = .idle) ∧
    (∃ t, step (commanding (regs .failed 8 3 0 0) 5#32) = .next t ∧ t.phase = .failed) := ⟨⟨_, rfl, rfl⟩, ⟨_, rfl, rfl⟩⟩
theorem witness_FailedIsEnteredOnlyAtACommandWrite :
    ∃ t, step (commanding (regs .done 0 3 0 0) 1#32) = .next t ∧ (regs .done 0 3 0 0).phase ≠ .failed ∧
      t.phase = .failed := ⟨_, rfl, by decide, rfl⟩
/-- Of StagesAdvancePhaseAndNeverFail, EveryAcceptedCommandEnds and EveryStepKeepsTheInvariant. -/
theorem witness_busy_invariant : ∃ s t : State, s.Inv ∧ s.busy = true ∧ s.host = [] ∧ s.phase = .quantizing ∧
    step s = .next t := by
  refine ⟨_, quantizeEffect { regs .quantizing 16 1 1 0 with chain := true }, busy_inv, rfl, rfl, rfl, ?_⟩
  exact runStage_of_allHold busy_inv.ready.1
theorem witness_OnlyPackWritesOlen :
    ∃ s t : State, step s = .next t ∧ t.olen ≠ s.olen ∧ s.phase = .clamping ∧ s.count ≤ Config.nmax := by
  refine ⟨regs .clamping 8 3 1 0, packEffect (regs .clamping 8 3 1 0), ?_, by decide, rfl, len_one ..⟩
  exact runStage_of_allHold (cs := packChecks) (s := regs .clamping 8 3 1 0)
    (by simp [allHold, packChecks, Check.holds, len_one])
theorem witness_EachBufferHasItsWriters :
    ∃ s t : State, step s = .next t ∧ t.readElem .q 0 ≠ s.readElem .q 0 := by
  refine ⟨{ State.reset with q := holding 16 [1], host := [.access (.bufWrite .q 0 2#16)] },
    { State.reset with q := holding 16 [2] }, ?_, by decide⟩
  have h : legalElemIndex .q 0 = true := by
    show decide (0 < Config.nmax) = true
    exact decide_eq_true one_le_nmax
  simp [step, hostAccess, bufWrite, h]
  rfl
theorem witness_OperandRegistersHaveTheirWriters :
    ∃ s t : State, step s = .next t ∧ (∀ rest, s.host ≠ .access .reset :: rest) ∧ t.bits ≠ s.bits :=
  ⟨State.reset.setHost [.access (.regWrite 2 99#32)], { State.reset with bits := 99#32 }, rfl, by simp, by decide⟩
theorem witness_WaitAfterACommandEnds : ∃ s : State, s.Inv ∧ s.busy = false ∧ Instr.run ≠ .clr :=
  ⟨_, rest_inv, rfl, by decide⟩

end Sys2Proof.Tests
end

/-! SUPPORT. What each operation does to OLEN (10_state.md R31), and obligation O52. -/

namespace Sys2Proof.Machine

section OlenWriters

variable {s t : State}

/-- Twice a legal length fits in OLEN: 2*NMAX is below 2^32 (R5, R34). -/
theorem toNat_ofNat_two_mul {n : Nat} (h : n ≤ Config.nmax) : (BitVec.ofNat 32 (2 * n)).toNat = 2 * n := by
  have hlt : 2 * n < 2 ^ 32 := by have := nmax_lt; omega
  rw [BitVec.toNat_ofNat, Nat.mod_eq_of_lt hlt]

/-- PACK's only check is that LEN is legal (R153). -/
theorem allHold_packChecks_iff : allHold packChecks s = true ↔ s.count ≤ Config.nmax := by
  simp [allHold, packChecks, Check.holds]

@[simp] theorem quantizeEffect_olen : (quantizeEffect s).olen = s.olen := by simp [quantizeEffect]
@[simp] theorem reduceEffect_olen : (reduceEffect s).olen = s.olen := by simp [reduceEffect]
@[simp] theorem restoreEffect_olen : (restoreEffect s).olen = s.olen := by simp [restoreEffect]
@[simp] theorem packEffect_olen : (packEffect s).olen = BitVec.ofNat 32 (2 * s.count) := by simp [packEffect]

@[simp] theorem pollStatus_olen : (pollStatus s).olen = s.olen := by
  unfold pollStatus; split <;> simp

/-- No command changes OLEN when it is written; PACK does so in its stage (R135, R136). -/
theorem exec_olen {i : Instr} (h : exec i s = .next t) : t.olen = s.olen := by
  obtain ⟨-, -, rfl⟩ | ⟨-, -, rfl⟩ | ⟨-, -, c, -, rfl⟩ | ⟨-, hstart⟩ := exec_cases h
  · exact clear_olen s
  · rfl
  · exact raise_olen s c.error
  · obtain ⟨-, -, rfl⟩ | ⟨-, -, rfl⟩ | ⟨-, -, rfl⟩ | ⟨-, -, rfl⟩ | ⟨-, -, rfl⟩ := hstart <;> exact start_olen ..

theorem writeCommand_olen {c : Word} (h : writeCommand c s = .next t) : t.olen = s.olen := by
  obtain ⟨i, -, hexec⟩ | ⟨-, ⟨-, rfl⟩ | ⟨-, rfl⟩⟩ := writeCommand_cases h
  · exact exec_olen hexec
  · rfl
  · exact raise_olen s .illegalCommand

/-- Reset is the only HOST access that changes OLEN (R142, R145). -/
theorem hostAccess_olen {a : HostAction} (h : hostAccess a s = .next t) (ha : a ≠ .reset) : t.olen = s.olen := by
  obtain ⟨hreset, -⟩ | ⟨i, r, -, -, -, rfl⟩ | ⟨v, -, hcmd⟩ | ⟨i, v, r, -, -, -, -, rfl⟩ | ⟨b, i, -, -, -, rfl⟩ |
    ⟨b, i, v, -, -, -, rfl⟩ := hostAccess_cases h
  · exact absurd hreset ha
  · exact receive_olen ..
  · exact writeCommand_olen hcmd
  · exact storeReg_olen ..
  · exact receive_olen ..
  · split
    · exact writeElem_olen ..
    · rfl

/-- SEQ changes OLEN in the stage CLAMPING only, and writes `2 * LEN` there (R31, R124). -/
theorem seqTurn_olen (h : seqTurn s = .next t) :
    t.olen = s.olen ∨ (s.phase = .clamping ∧ t.olen.toNat = 2 * s.count) := by
  obtain ⟨-, rfl⟩ | ⟨-, -, rfl⟩ | ⟨-, -, rfl⟩ | ⟨-, -, rfl⟩ | ⟨hp, hlen, rfl⟩ := seqTurn_cases h
  · exact .inl rfl
  · exact .inl quantizeEffect_olen
  · exact .inl reduceEffect_olen
  · exact .inl restoreEffect_olen
  · exact .inr ⟨hp, by rw [packEffect_olen, toNat_ofNat_two_mul (allHold_packChecks_iff.1 hlen)]⟩

/-- In CLAMPING with a legal LEN, SEQ's turn is the effect of PACK (R136). -/
theorem seqTurn_clamping (hp : s.phase = .clamping) (hlen : s.count ≤ Config.nmax) :
    seqTurn s = .next (packEffect s) := by
  simp only [seqTurn, hp]
  exact runStage_of_allHold (allHold_packChecks_iff.2 hlen)

/-- What a step does to OLEN: it is kept, reset, or written by PACK's stage (R31). -/
theorem step_olen (h : step s = .next t) :
    t.olen = s.olen ∨ (∃ rest, s.host = .access .reset :: rest) ∨
      (s.phase = .clamping ∧ t.olen.toNat = 2 * s.count) := by
  obtain ⟨-, hseq⟩ | ⟨rest, -, hseq⟩ | ⟨rest, -, rfl⟩ | ⟨a, rest, hhost, hacc⟩ := step_cases h
  · exact (seqTurn_olen hseq).imp_right .inr
  · exact (seqTurn_olen hseq).imp_right .inr
  · exact .inl pollStatus_olen
  · by_cases ha : a = .reset
    · exact .inr (.inl ⟨rest, ha ▸ hhost⟩)
    · exact .inl (hostAccess_olen (s := s.setHost rest) hacc ha)

end OlenWriters

/-- Settles O52: the frame part is `step_olen`, the write is SEQ's turn in CLAMPING with `2 * LEN` below 2^32. -/
theorem onlyPackWritesOlen : Obligations.OnlyPackWritesOlen := by
  unfold Obligations.OnlyPackWritesOlen
  constructor
  · intro s t hstep hne
    exact (step_olen hstep).resolve_left hne
  · intro s hp hlen
    exact ⟨packEffect s, seqTurn_clamping hp hlen, by rw [packEffect_olen, toNat_ofNat_two_mul hlen]⟩

end Sys2Proof.Machine

/-! SUPPORT. The decoder against the encoder (30_encoding.md R71 to R78), a command word written to CMD, and obligations
O3 and O6. -/

namespace Sys2Proof.Machine

section CommandWords

variable {s : State} {c : Word} {i : Instr} {rest : List HostMove}

/-- Fields ZERO and OPC are the whole word (R71). -/
theorem zeroField_append_opcField (c : Word) : zeroField c ++ opcField c = c :=
  (BitVec.extractLsb'_append_extractLsb'_eq_extractLsb' rfl).trans BitVec.extractLsb'_eq_self

/-- The decoder answers a command only where field ZERO is clear and OPC is that command's opcode. -/
theorem fields_of_decode (h : decode c = .ok i) : zeroField c = 0#24 ∧ opcField c = opcode i := by
  unfold decode at h
  split_ifs at h with hz hquant hreduce hrestore hpack hrun hclr <;> cases h <;>
    exact ⟨not_not.1 hz, by assumption⟩

theorem decode_encode (i : Instr) : decode (encode i) = .ok i := by cases i <;> rfl

/-- A command has one word, its own. -/
theorem decode_eq_ok_iff : decode c = .ok i ↔ c = encode i := by
  constructor
  · intro h
    obtain ⟨hzero, hopc⟩ := fields_of_decode h
    rw [← zeroField_append_opcField c, hzero, hopc, encode]
  · rintro rfl
    exact decode_encode i

theorem encode_toNat (i : Instr) : (encode i).toNat = (opcode i).toNat := by cases i <;> rfl

theorem decode_eq_ok_iff_toNat : decode c = .ok i ↔ c.toNat = (opcode i).toNat := by
  rw [decode_eq_ok_iff, ← BitVec.toNat_inj, encode_toNat]

/-- The opcodes are the numbers 1 to 6 (R72). -/
theorem exists_opcode_iff {n : Nat} : (∃ i, n = (opcode i).toNat) ↔ 1 ≤ n ∧ n ≤ 6 := by
  constructor
  · rintro ⟨i, rfl⟩
    cases i <;> decide
  · rintro ⟨hlow, hhigh⟩
    interval_cases n
    exacts [⟨.quant, rfl⟩, ⟨.reduce, rfl⟩, ⟨.restore, rfl⟩, ⟨.pack, rfl⟩, ⟨.run, rfl⟩, ⟨.clr, rfl⟩]

/-- R74: the legal command words. -/
theorem exists_decode_ok_iff : (∃ i, decode c = .ok i) ↔ 1 ≤ c.toNat ∧ c.toNat ≤ 6 := by
  simp only [decode_eq_ok_iff_toNat, exists_opcode_iff]

/-- R78: the illegal command words are all the others. -/
theorem exists_decode_error_iff : (∃ e, decode c = .error e) ↔ c.toNat = 0 ∨ 7 ≤ c.toNat := by
  have htotal : (∃ e, decode c = .error e) ↔ ¬∃ i, decode c = .ok i := by cases decode c <;> simp
  rw [htotal, exists_decode_ok_iff]
  omega

/-- A step at which HOST writes a word to CMD (R142). -/
theorem step_of_cmdWrite (h : s.host = .access (.regWrite 0 c) :: rest) :
    step s = writeCommand c (s.setHost rest) := by
  rw [step, h]
  rfl

theorem writeCommand_of_error {e : DecodeError} (h : decode c = .error e) : writeCommand c s = issueIllegal s := by
  simp only [writeCommand, h]

theorem issueIllegal_atRest (h : s.phase = .idle ∨ s.phase = .done) :
    issueIllegal s = .next (s.raise .illegalCommand) := onCommand_atRest h

theorem issueIllegal_failed (h : s.phase = .failed) : issueIllegal s = .next s := onCommand_failed h

end CommandWords

/-- Settles O3: a command is decoded from its own word only, and an illegal word is one that is no command's. -/
theorem everyWordIsACommandOrIllegal : Obligations.EveryWordIsACommandOrIllegal := by
  unfold Obligations.EveryWordIsACommandOrIllegal
  intro c
  exact ⟨decode_eq_ok_iff_toNat, decode_eq_ok_iff_toNat, decode_eq_ok_iff_toNat, decode_eq_ok_iff_toNat,
    decode_eq_ok_iff_toNat, decode_eq_ok_iff_toNat, exists_decode_error_iff⟩

/-- Settles O6: an illegal word's step is `issueIllegal`, which raises at rest and does nothing in FAILED. -/
theorem illegalWordsFailTheBlock : Obligations.IllegalWordsFailTheBlock := by
  unfold Obligations.IllegalWordsFailTheBlock
  intro s c rest hhost
  refine ⟨exists_decode_ok_iff, fun hillegal => ?_⟩
  obtain ⟨e, he⟩ := exists_decode_error_iff.2 hillegal
  have hstep : step s = issueIllegal (s.setHost rest) := by
    rw [step_of_cmdWrite hhost, writeCommand_of_error he]
  exact ⟨fun hrest => hstep.trans (issueIllegal_atRest hrest), fun hfailed => hstep.trans (issueIllegal_failed hfailed)⟩

end Sys2Proof.Machine

/-! SUPPORT. The quantizer's arithmetic (40_quantizer.md R90 to R93), its stage and command, and obligations O15, O16, O17
and O20. -/

namespace Sys2Proof.Machine

section QuantizerArithmetic

variable {b : Nat}

/-- The divisor of R90 is positive, so that floor division by it has its defining property. -/
theorem scale_pos (b : Nat) : 0 < scale b := Int.pow_pos (by decide)

theorem minVal_le_maxVal (b : Nat) : minVal b ≤ maxVal b := by
  have hpow : (0 : Int) < 2 ^ (b - 1) := Int.pow_pos (by decide)
  simp only [minVal, maxVal]
  omega

/-- R93: the clamp bounds every quantized value, whatever the sample and the depth. -/
theorem quantizeOne_bounds (v : Int) (b : Nat) : minVal b ≤ quantizeOne v b ∧ quantizeOne v b ≤ maxVal b :=
  clamp_bounds _ (minVal_le_maxVal b)

/-- The range of a legal depth lies in the signed 16-bit range, that of depth 16 (R26). -/
theorem depth_range_inS16 (h : b ≤ 16) : -32768 ≤ minVal b ∧ maxVal b ≤ 32767 := by
  have hpow : (2 : Int) ^ (b - 1) ≤ 2 ^ 15 := pow_le_pow_right₀ (by decide) (by omega)
  simp only [minVal, maxVal]
  omega

/-- Every quantized value is stored in Q without wrapping (R34). -/
theorem quantize_inRange (h : b ≤ 16) {vs : List Int} {v : Int} (hv : v ∈ quantize vs b) : Buf.q.inRange v := by
  obtain ⟨u, -, rfl⟩ := List.mem_map.1 hv
  obtain ⟨hmin, hmax⟩ := depth_range_inS16 h
  obtain ⟨hlow, hhigh⟩ := quantizeOne_bounds u b
  exact ⟨hmin.trans hlow, hhigh.trans hmax⟩

@[simp] theorem quantize_length (vs : List Int) (b : Nat) : (quantize vs b).length = vs.length := List.length_map ..

theorem getElem?_quantize (vs : List Int) (b i : Nat) :
    (quantize vs b)[i]? = vs[i]?.map fun v => quantizeOne v b := List.getElem?_map ..

end QuantizerArithmetic

/-- Settles O15: `d` is the floor quotient of R7. -/
theorem quantizeRoundsDownThenClamps : Obligations.QuantizeRoundsDownThenClamps := by
  unfold Obligations.QuantizeRoundsDownThenClamps
  intro v b _ _
  obtain ⟨hlow, hhigh⟩ := floordiv_spec v (scale_pos b)
  exact ⟨floordiv v (scale b), hlow, hhigh, rfl⟩

/-- Settles O16: `quantize` maps `quantizeOne` over the sequence. -/
theorem quantizeKeepsLengthAndOrder : Obligations.QuantizeKeepsLengthAndOrder := by
  unfold Obligations.QuantizeKeepsLengthAndOrder
  intro vs b _ _
  exact ⟨quantize_length vs b, getElem?_quantize vs b⟩

/-- Settles O17: the bounds are those of the clamp. -/
theorem quantizedValueIsInRange : Obligations.QuantizedValueIsInRange := by
  unfold Obligations.QuantizedValueIsInRange
  intro v b _ _
  exact quantizeOne_bounds v b

section QuantizerStage

variable {s : State} {c : Check} {cs : List Check}

theorem firstFailure_cons_of_holds (h : c.holds s = true) : firstFailure (c :: cs) s = firstFailure cs s := if_pos h

theorem firstFailure_cons_of_fails (h : c.holds s = false) : firstFailure (c :: cs) s = some c.error :=
  if_neg (by simp [h])

theorem bits_holds_iff : Check.bits.holds s = true ↔ 1 ≤ s.depth ∧ s.depth ≤ 16 := decide_eq_true_iff

theorem len_holds_iff : Check.len.holds s = true ↔ s.count ≤ Config.nmax := decide_eq_true_iff

/-- QUANT's checks are that BITS and LEN are legal (R153). -/
theorem allHold_quantChecks_iff :
    allHold quantChecks s = true ↔ (1 ≤ s.depth ∧ s.depth ≤ 16) ∧ s.count ≤ Config.nmax := by
  simp [allHold, quantChecks, bits_holds_iff, len_holds_iff]

/-- BITS is checked first, so an illegal BITS decides the error whatever LEN holds (R154). -/
theorem firstFailure_quantChecks_bits (h : ¬(1 ≤ s.depth ∧ s.depth ≤ 16)) :
    firstFailure quantChecks s = some .badBits :=
  firstFailure_cons_of_fails (Bool.eq_false_iff.2 (mt bits_holds_iff.1 h))

theorem firstFailure_quantChecks_len (hbits : 1 ≤ s.depth ∧ s.depth ≤ 16) (hlen : Config.nmax < s.count) :
    firstFailure quantChecks s = some .badLength := by
  rw [quantChecks, firstFailure_cons_of_holds (bits_holds_iff.2 hbits)]
  exact firstFailure_cons_of_fails (Bool.eq_false_iff.2 (mt len_holds_iff.1 (Nat.not_le.2 hlen)))

@[simp] theorem quantizeEffect_phase : (quantizeEffect s).phase = bif s.chain then .reducing else .done := by
  simp [quantizeEffect]
@[simp] theorem quantizeEffect_err : (quantizeEffect s).err = s.err := by simp [quantizeEffect]
@[simp] theorem quantizeEffect_chain : (quantizeEffect s).chain = s.chain := by simp [quantizeEffect]
@[simp] theorem quantizeEffect_rlen : (quantizeEffect s).rlen = s.rlen := by simp [quantizeEffect]

theorem quantizeEffect_sameOperands : SameOperands s (quantizeEffect s) := by simp [SameOperands, quantizeEffect]

theorem quantizeEffect_sameOutside : SameOutside s (quantizeEffect s) := by simp [SameOutside, quantizeEffect]

/-- R92: Q[0..n) holds the quantized samples after the stage. -/
theorem quantizeEffect_memRead_q (h : s.depth ≤ 16) :
    (quantizeEffect s).memRead .q 0 s.count = quantize (s.memRead .src 0 s.count) s.depth := by
  rw [quantizeEffect, advance_memRead]
  exact memRead_memWrite_of_length s (by simp) fun _ => quantize_inRange h

/-- R92: the stage writes no element but Q[0..n). -/
theorem quantizeEffect_sameElementsBut : SameElementsBut .q s.count s (quantizeEffect s) := by
  intro c i h
  rw [quantizeEffect, advance_readElem]
  exact memWrite_sameBut s .q _ c i (by simpa using h)

/-- In QUANTIZING with BITS and LEN legal, SEQ's turn is the effect of QUANT (R92, R136). -/
theorem seqTurn_quantizing (hp : s.phase = .quantizing) (hbits : 1 ≤ s.depth ∧ s.depth ≤ 16)
    (hlen : s.count ≤ Config.nmax) : seqTurn s = .next (quantizeEffect s) := by
  simp only [seqTurn, hp]
  exact runStage_of_allHold (allHold_quantChecks_iff.2 ⟨hbits, hlen⟩)

end QuantizerStage

/-- Settles O20: QUANT is an issued command with the checks of BITS and LEN, and its stage is `quantizeEffect`. -/
theorem quantCommand : Obligations.QuantCommand := by
  unfold Obligations.QuantCommand
  refine ⟨decode_encode .quant, fun s hp hbits hlen => ?stage, fun s hrest =>
    ⟨fun hbits hlen => ?accepted, fun hbits => ?badBits, fun hbits hlen => ?badLength⟩⟩
  case stage =>
    exact ⟨quantizeEffect s, seqTurn_quantizing hp hbits hlen, by simp [Bool.cond_eq_ite],
      quantizeEffect_memRead_q hbits.2⟩
  case accepted =>
    refine ⟨s.start .quantizing false, quantizeEffect (s.start .quantizing false),
      issue_accepted hrest (allHold_quantChecks_iff.2 ⟨hbits, hlen⟩), rfl, seqTurn_quantizing rfl hbits hlen,
      quantizeEffect_phase, quantizeEffect_chain, quantizeEffect_err, ?_, ?_, quantizeEffect_sameOperands,
      quantizeEffect_rlen, quantizeEffect_olen, quantizeEffect_sameOutside⟩
    · simpa using quantizeEffect_memRead_q (s := s.start .quantizing false) hbits.2
    · intro c i h
      exact (quantizeEffect_sameElementsBut c i h).trans (start_readElem ..)
  case badBits =>
    exact issue_rejected hrest (firstFailure_quantChecks_bits hbits)
  case badLength =>
    exact issue_rejected hrest (firstFailure_quantChecks_len hbits hlen)

end Sys2Proof.Machine

/-! SUPPORT. The downsampler's frequency map, windows, representative and reduced sequence (41_downsampler.md R100 to
R103), its stage and command (R104), and obligations O21, O22, O23, O24 and O26. -/

namespace Sys2Proof.Machine

section FrequencyMap

/-- Reading a sequence at each of its indices lists its elements in order. -/
theorem map_getElem?_range (q : List Int) : ((List.range q.length).map fun i => q[i]?) = q.map some :=
  List.ext_getElem (by simp) fun i _ _ => by simp

/-- R100: `freq` counts the indices of the sequence that hold the value. -/
theorem freq_eq_length_filter_range (q : List Int) (v : Int) :
    freq q v = ((List.range q.length).filter fun i => decide (q[i]? = some v)).length := by
  calc freq q v = (q.map some).count (some v) :=
        (List.count_map_of_injective q some (Option.some_injective Int) v).symm
    _ = ((List.range q.length).map fun i => q[i]?).count (some v) := by rw [map_getElem?_range]
    _ = ((List.range q.length).filter fun i => decide (q[i]? = some v)).length := by
        rw [List.count, List.countP_map, List.countP_eq_length_filter]
        simp only [Function.comp_def, beq_eq_decide]

end FrequencyMap

/-- Settles O21: the indices are counted by `freq_eq_length_filter_range`; the rest are the laws of `List.count`. -/
theorem frequencyMapCountsTheWholeSequence : Obligations.FrequencyMapCountsTheWholeSequence := by
  unfold Obligations.FrequencyMapCountsTheWholeSequence
  exact ⟨fun q v => ⟨freq_eq_length_filter_range q v, List.one_le_count_iff, List.count_eq_zero_of_not_mem⟩,
    List.sum_map_count_dedup_eq_length, fun _ _ v hperm => hperm.count_eq v⟩

section Windows

variable {q : List Int} {n w k i : Nat}

theorem windowHi_le_length (k w n : Nat) : windowHi k w n ≤ n := Nat.min_le_right ..

/-- A window starts inside the sequence, by minimality of the ceiling (R9). -/
theorem windowLo_lt_length (hw : 1 ≤ w) (hk : k < ceildiv n w) : windowLo k w < n := by
  by_contra hge
  exact Nat.not_le.2 hk ((ceildiv_spec n hw).2 k (Nat.le_of_not_lt hge))

/-- Every window but the last ends where the next one starts (R101). -/
theorem windowHi_of_not_last (hw : 1 ≤ w) (hk : k + 1 < ceildiv n w) : windowHi k w n = windowLo k w + w := by
  have hnext : (k + 1) * w < n := windowLo_lt_length hw hk
  rw [windowHi, Nat.min_eq_left hnext.le, windowLo, Nat.succ_mul]

/-- The last window ends where the sequence ends (R101). -/
theorem windowHi_of_last (hw : 1 ≤ w) (hk : k + 1 = ceildiv n w) : windowHi k w n = n :=
  Nat.min_eq_right (hk ▸ (ceildiv_spec n hw).1)

theorem windowHi_le_windowLo_add (k w n : Nat) : windowHi k w n ≤ windowLo k w + w := by
  rw [windowLo, ← Nat.succ_mul]
  exact Nat.min_le_left ..

theorem windowLo_lt_windowHi (hw : 1 ≤ w) (hk : k < ceildiv n w) : windowLo k w < windowHi k w n := by
  refine Nat.lt_min.2 ⟨?_, windowLo_lt_length hw hk⟩
  rw [windowLo, Nat.succ_mul]
  omega

@[simp] theorem windowAt_length (q : List Int) (w k : Nat) :
    (windowAt q w k).length = windowHi k w q.length - windowLo k w := by
  have hle := windowHi_le_length k w q.length
  rw [windowAt, List.length_take, List.length_drop]
  omega

theorem getElem?_windowAt {j : Nat} (hj : j < windowHi k w q.length - windowLo k w) :
    (windowAt q w k)[j]? = q[windowLo k w + j]? := by
  rw [windowAt, List.getElem?_take_of_lt hj, List.getElem?_drop]

theorem windowAt_ne_nil (hw : 1 ≤ w) (hk : k < ceildiv q.length w) : windowAt q w k ≠ [] := by
  have hlt := windowLo_lt_windowHi hw hk
  rw [← List.length_pos_iff, windowAt_length]
  omega

theorem mem_of_mem_windowAt {v : Int} (h : v ∈ windowAt q w k) : v ∈ q :=
  List.mem_of_mem_drop (List.mem_of_mem_take h)

/-- An index lies in window k exactly when its quotient by w is k. -/
theorem idiv_eq_iff_in_window (hw : 1 ≤ w) (hi : i < n) :
    idiv i w = k ↔ windowLo k w ≤ i ∧ i < windowHi k w n := by
  rw [idiv, Nat.div_eq_iff hw, windowLo, windowHi, Nat.succ_mul]
  omega

end Windows

/-- Settles O22: the bounds of a window, and that index i lies in window `idiv i w` only. -/
theorem windowsPartitionTheSequence : Obligations.WindowsPartitionTheSequence := by
  unfold Obligations.WindowsPartitionTheSequence
  intro q w hw
  refine ⟨fun k hk => ⟨windowLo_lt_windowHi hw hk, windowAt_length q w k, fun j => getElem?_windowAt⟩,
    fun k hk => ?full, fun k hk => ?last, fun i hi => ?unique, fun hnil => ?none⟩
  case full =>
    rw [windowAt_length, windowHi_of_not_last hw hk, Nat.add_sub_cancel_left]
  case last =>
    have hlt := windowLo_lt_windowHi hw (show k < ceildiv q.length w by omega)
    have hle := windowHi_le_windowLo_add k w q.length
    rw [windowAt_length]
    exact ⟨by rw [windowHi_of_last hw hk, windowLo], by omega, by omega⟩
  case unique =>
    exact ⟨idiv i w, ⟨idiv_lt_ceildiv hw hi, (idiv_eq_iff_in_window hw hi).1 rfl⟩,
      fun k' hk' => ((idiv_eq_iff_in_window hw hi).2 hk'.2).symm⟩
  case none =>
    rw [hnil, ceildiv_zero w hw]

section Representative

variable {f : Int → Nat} {win : List Int} {b : Int}

/-- The value `b` stands at a place of the window where no count is higher and every earlier count is lower (R102). -/
def IsFirstOfHighestCount (f : Int → Nat) (win : List Int) (b : Int) : Prop :=
  ∃ before after, win = before ++ b :: after ∧ (∀ u ∈ before, f u < f b) ∧ ∀ u ∈ after, f u ≤ f b

theorem IsFirstOfHighestCount.mem (h : IsFirstOfHighestCount f win b) : b ∈ win := by
  obtain ⟨before, after, rfl, -, -⟩ := h
  simp

theorem IsFirstOfHighestCount.le (h : IsFirstOfHighestCount f win b) : ∀ u ∈ win, f u ≤ f b := by
  obtain ⟨before, after, rfl, hbefore, hafter⟩ := h
  intro u hu
  obtain hu | rfl | hu := by simpa using hu
  · exact (hbefore u hu).le
  · exact le_rfl
  · exact hafter u hu

/-- One iteration of `rep` keeps the best of the elements visited so far (R102). -/
theorem IsFirstOfHighestCount.snoc (h : IsFirstOfHighestCount f win b) (v : Int) :
    IsFirstOfHighestCount f (win ++ [v]) (better f b v) := by
  rw [better]
  split_ifs with hv
  · exact ⟨win, [], rfl, fun u hu => (h.le u hu).trans_lt hv, by simp⟩
  · obtain ⟨before, after, rfl, hbefore, hafter⟩ := h
    refine ⟨before, after ++ [v], by simp, hbefore, fun u hu => ?_⟩
    obtain hu | rfl := by simpa using hu
    · exact hafter u hu
    · exact Nat.le_of_not_lt hv

/-- The loop of `rep`: after the elements visited, it keeps the best of the rest as well. -/
theorem IsFirstOfHighestCount.append (rest : List Int) (h : IsFirstOfHighestCount f win b) :
    IsFirstOfHighestCount f (win ++ rest) (rest.foldl (better f) b) := by
  induction rest generalizing win b with
  | nil => simpa using h
  | cons v rest ih => simpa using ih (h.snoc v)

/-- R102: a window that is not empty has a representative, the first element of highest count. -/
theorem exists_representative (f : Int → Nat) (h : win ≠ []) :
    ∃ b, representative f win = some b ∧ IsFirstOfHighestCount f win b := by
  cases win with
  | nil => exact absurd rfl h
  | cons v rest =>
    have hfirst : IsFirstOfHighestCount f [v] v := ⟨[], [], rfl, by simp, by simp⟩
    exact ⟨_, rfl, hfirst.append rest⟩

theorem mem_of_representative_eq_some (h : representative f win = some b) : b ∈ win := by
  cases win with
  | nil => simp [representative] at h
  | cons v rest =>
    obtain ⟨c, hc, hfirst⟩ := exists_representative f (List.cons_ne_nil v rest)
    obtain rfl : c = b := Option.some.inj (hc.symm.trans h)
    exact hfirst.mem

end Representative

/-- Settles O23: the index is the number of elements before the representative. -/
theorem representativeIsTheFirstOfHighestCount : Obligations.RepresentativeIsTheFirstOfHighestCount := by
  unfold Obligations.RepresentativeIsTheFirstOfHighestCount
  intro f win hwin
  obtain ⟨b, hrep, hfirst⟩ := exists_representative f hwin
  have hle := hfirst.le
  obtain ⟨before, after, rfl, hbefore, -⟩ := hfirst
  refine ⟨before.length, by simp, by simpa using hrep, by simpa using hle, fun i hi hlt => ?_⟩
  simpa [List.getElem_append_left hlt] using hbefore _ (List.getElem_mem hlt)

section ReducedSequence

variable {q : List Int} {w k : Nat}

/-- R103: no window is skipped, since none is empty. -/
theorem map_some_reduce (hw : 1 ≤ w) : (reduce q w).map some =
    (List.range (ceildiv q.length w)).map fun k => representative (freq q) (windowAt q w k) := by
  rw [reduce, List.map_filterMap_some_eq_filter_map_isSome, List.filter_eq_self]
  simp only [List.mem_map, List.mem_range]
  rintro _ ⟨k, hk, rfl⟩
  obtain ⟨b, hrep, -⟩ := exists_representative (freq q) (windowAt_ne_nil hw hk)
  simp [hrep]

theorem reduce_length (q : List Int) (hw : 1 ≤ w) : (reduce q w).length = ceildiv q.length w := by
  simpa using congrArg List.length (map_some_reduce (q := q) hw)

theorem getElem?_reduce (hw : 1 ≤ w) (hk : k < ceildiv q.length w) :
    (reduce q w)[k]? = representative (freq q) (windowAt q w k) := by
  have hget : (reduce q w)[k]?.map some = some (representative (freq q) (windowAt q w k)) := by
    rw [← List.getElem?_map, map_some_reduce hw, List.getElem?_map, List.getElem?_range hk, Option.map_some]
  obtain ⟨b, hb, hrep⟩ := Option.map_eq_some_iff.1 hget
  exact hb.trans hrep

/-- The reduced sequence holds values of the sequence only. -/
theorem mem_of_mem_reduce {v : Int} (h : v ∈ reduce q w) : v ∈ q := by
  obtain ⟨k, -, hrep⟩ := List.mem_filterMap.1 h
  exact mem_of_mem_windowAt (mem_of_representative_eq_some hrep)

end ReducedSequence

/-- Settles O24: by `map_some_reduce`, the reduced sequence lists the windows' representatives. -/
theorem reduceKeepsOnePerWindow : Obligations.ReduceKeepsOnePerWindow := by
  unfold Obligations.ReduceKeepsOnePerWindow
  intro q w hw
  exact ⟨reduce_length q hw, fun k => getElem?_reduce hw⟩

section ReducerStage

variable {s : State}

theorem window_holds_iff : Check.window.holds s = true ↔ 1 ≤ s.windowSize := decide_eq_true_iff

/-- REDUCE's checks are that WINDOW and LEN are legal (R153). -/
theorem allHold_reduceChecks_iff :
    allHold reduceChecks s = true ↔ 1 ≤ s.windowSize ∧ s.count ≤ Config.nmax := by
  simp [allHold, reduceChecks, window_holds_iff, len_holds_iff]

/-- WINDOW is checked first, so an illegal WINDOW decides the error whatever LEN holds (R154). -/
theorem firstFailure_reduceChecks_window (h : ¬1 ≤ s.windowSize) : firstFailure reduceChecks s = some .badWindow :=
  firstFailure_cons_of_fails (Bool.eq_false_iff.2 (mt window_holds_iff.1 h))

theorem firstFailure_reduceChecks_len (hwin : 1 ≤ s.windowSize) (hlen : Config.nmax < s.count) :
    firstFailure reduceChecks s = some .badLength := by
  rw [reduceChecks, firstFailure_cons_of_holds (window_holds_iff.2 hwin)]
  exact firstFailure_cons_of_fails (Bool.eq_false_iff.2 (mt len_holds_iff.1 (Nat.not_le.2 hlen)))

@[simp] theorem reduceEffect_phase : (reduceEffect s).phase = bif s.chain then .restoring else .done := by
  simp [reduceEffect]
@[simp] theorem reduceEffect_err : (reduceEffect s).err = s.err := by simp [reduceEffect]
@[simp] theorem reduceEffect_chain : (reduceEffect s).chain = s.chain := by simp [reduceEffect]

theorem reduceEffect_sameOperands : SameOperands s (reduceEffect s) := by simp [SameOperands, reduceEffect]

theorem reduceEffect_sameOutside : SameOutside s (reduceEffect s) := by simp [SameOutside, reduceEffect]

/-- The stage reduces `ceildiv n w` windows of the n elements read from Q (R104). -/
theorem reduce_memRead_length (hwin : 1 ≤ s.windowSize) :
    (reduce (s.memRead .q 0 s.count) s.windowSize).length = ceildiv s.count s.windowSize := by
  rw [reduce_length _ hwin, memRead_length]

/-- R104: RLEN holds the number of windows, which fits in it because LEN does. -/
theorem reduceEffect_rlen_toNat (hwin : 1 ≤ s.windowSize) :
    (reduceEffect s).rlen.toNat = ceildiv s.count s.windowSize := by
  have hfits : ceildiv s.count s.windowSize < 2 ^ 32 := (ceildiv_le s.count hwin).trans_lt s.len.isLt
  rw [reduceEffect, advance_rlen, storeReduced_rlen, reduce_memRead_length hwin, BitVec.toNat_ofNat,
    Nat.mod_eq_of_lt hfits]

@[simp] theorem reduceEffect_draw : (reduceEffect s).draw = s.draw := by simp [reduceEffect]

/-- The stage's buffers are those of writing the reduced sequence to RED. -/
theorem reduceEffect_buf (b : Buf) : (reduceEffect s).buf b =
    (s.memWrite .red 0 (reduce (s.memRead .q 0 s.count) s.windowSize)).buf b := by
  rw [reduceEffect, advance_buf, storeReduced_buf]

/-- R104: RED[0..m) holds the reduced sequence after the stage; its values come from Q, so none wraps (R34). -/
theorem reduceEffect_memRead_red (hwin : 1 ≤ s.windowSize) :
    (reduceEffect s).memRead .red 0 (ceildiv s.count s.windowSize) =
      reduce (s.memRead .q 0 s.count) s.windowSize := by
  rw [memRead_congr (reduceEffect_buf .red) (by simp)]
  refine memRead_memWrite_of_length s (reduce_memRead_length hwin) fun v hv => ?_
  have hq : Buf.q.inRange v := memRead_inRange s (mem_of_mem_reduce hv)
  exact hq

/-- R104: the stage writes no element but RED[0..m). -/
theorem reduceEffect_sameElementsBut (hwin : 1 ≤ s.windowSize) :
    SameElementsBut .red (ceildiv s.count s.windowSize) s (reduceEffect s) := by
  intro c i h
  rw [readElem_congr (reduceEffect_buf c) (by simp)]
  exact memWrite_sameBut s .red _ c i (by rwa [reduce_memRead_length hwin])

/-- In REDUCING with WINDOW and LEN legal, SEQ's turn is the effect of REDUCE (R104, R136). -/
theorem seqTurn_reducing (hp : s.phase = .reducing) (hwin : 1 ≤ s.windowSize) (hlen : s.count ≤ Config.nmax) :
    seqTurn s = .next (reduceEffect s) := by
  simp only [seqTurn, hp]
  exact runStage_of_allHold (allHold_reduceChecks_iff.2 ⟨hwin, hlen⟩)

end ReducerStage

/-- Settles O26: REDUCE is an issued command with the checks of WINDOW and LEN, and its stage is `reduceEffect`. -/
theorem reduceCommand : Obligations.ReduceCommand := by
  unfold Obligations.ReduceCommand
  refine ⟨decode_encode .reduce, fun s hp hwin hlen => ?stage, fun s hrest =>
    ⟨fun hwin hlen => ?accepted, fun hwin => ?badWindow, fun hwin hlen => ?badLength⟩⟩
  case stage =>
    exact ⟨reduceEffect s, seqTurn_reducing hp hwin hlen, by simp [Bool.cond_eq_ite],
      reduceEffect_memRead_red hwin, reduceEffect_rlen_toNat hwin⟩
  case accepted =>
    refine ⟨s.start .reducing false, reduceEffect (s.start .reducing false),
      issue_accepted hrest (allHold_reduceChecks_iff.2 ⟨hwin, hlen⟩), rfl, seqTurn_reducing rfl hwin hlen,
      reduceEffect_phase, reduceEffect_chain, reduceEffect_err, ?_, reduceEffect_rlen_toNat hwin, ?_,
      reduceEffect_sameOperands, reduceEffect_olen, reduceEffect_sameOutside⟩
    · simpa using reduceEffect_memRead_red (s := s.start .reducing false) hwin
    · intro c i h
      exact (reduceEffect_sameElementsBut (s := s.start .reducing false) hwin c i h).trans (start_readElem ..)
  case badWindow =>
    exact issue_rejected hrest (firstFailure_reduceChecks_window hwin)
  case badLength =>
    exact issue_rejected hrest (firstFailure_reduceChecks_len hwin hlen)

end Sys2Proof.Machine

/-! SUPPORT. The upsampler's rescaling and restored sequence (42_upsampler.md R110, R113, R115, R116 (a)), its stage and
command (R114), and obligations O29 and O32. -/

namespace Sys2Proof.Machine

section RestoredSequence

variable {r : List Int} {l b w i : Nat} {v x : Int}

@[simp] theorem restore_length (r : List Int) (l b w : Nat) : (restore r l b w).length = l := by
  rw [restore, List.length_map, List.length_range]

/-- R113: position i holds the rescaled element `idiv i w` of the reduced sequence, or 0 past its end. -/
theorem getElem?_restore (hi : i < l) :
    (restore r l b w)[i]? = some ((r[idiv i w]?.map fun v => rescale v b).getD 0) := by
  rw [restore, List.getElem?_map, List.getElem?_range hi, Option.map_some]
  cases r[idiv i w]? <;> rfl

/-- A restored value is padding or a rescaled element of the reduced sequence. -/
theorem eq_zero_or_rescale_of_mem_restore (hx : x ∈ restore r l b w) : x = 0 ∨ ∃ v ∈ r, x = rescale v b := by
  obtain ⟨i, hi⟩ := List.mem_iff_getElem?.1 hx
  have hlt : i < l := by simpa using (List.getElem?_eq_some_iff.1 hi).1
  rw [getElem?_restore hlt] at hi
  cases hv : r[idiv i w]? with
  | none => exact .inl (by simpa [hv] using hi.symm)
  | some v => exact .inr ⟨v, List.mem_of_getElem? hv, by simpa [hv] using hi.symm⟩

theorem scale_le (hb : 1 ≤ b) : scale b ≤ 2 ^ 15 := pow_le_pow_right₀ (by decide) (by omega)

/-- R116 (a): a 16-bit value rescaled at a legal depth lies within 2^30 of 0. -/
theorem rescale_bounds (hb : 1 ≤ b) (hv : InS16 v) : -(2 ^ 30) ≤ rescale v b ∧ rescale v b ≤ 2 ^ 30 := by
  have habs : |v * scale b| ≤ 2 ^ 15 * 2 ^ 15 := by
    rw [abs_mul, abs_of_pos (scale_pos b)]
    exact mul_le_mul (abs_le.2 (by omega)) (scale_le hb) (scale_pos b).le (by decide)
  exact abs_le.1 habs

/-- R116 (a): restoring 16-bit values at a legal depth gives values within 2^30 of 0. -/
theorem restore_bounds (hb : 1 ≤ b) (hr : ∀ v ∈ r, InS16 v) (hx : x ∈ restore r l b w) :
    -(2 ^ 30) ≤ x ∧ x ≤ 2 ^ 30 := by
  obtain rfl | ⟨v, hv, rfl⟩ := eq_zero_or_rescale_of_mem_restore hx
  · decide
  · exact rescale_bounds hb (hr v hv)

/-- Every restored value is stored in RST without wrapping (R34). -/
theorem restore_inRange (hb : 1 ≤ b) (hr : ∀ v ∈ r, InS16 v) (hx : x ∈ restore r l b w) : Buf.rst.inRange x := by
  obtain ⟨hlow, hhigh⟩ := restore_bounds hb hr hx
  simp only [Buf.inRange]
  omega

end RestoredSequence

/-- Settles O29: the closed form of R113 lists one value for each index below the target length. -/
theorem restoreHasExactlyTheLength : Obligations.RestoreHasExactlyTheLength := by
  unfold Obligations.RestoreHasExactlyTheLength
  exact ⟨fun r l b w _ _ _ => restore_length r l b w, fun q b w _ _ _ => restore_length (reduce q w) q.length b w⟩

section RestorerStage

variable {s : State}

theorem rlen_holds_iff : Check.rlen.holds s = true ↔ s.reducedCount ≤ Config.nmax := decide_eq_true_iff

/-- RESTORE's checks are that all four operand registers are legal (R153). -/
theorem allHold_restoreChecks_iff : allHold restoreChecks s = true ↔
    (1 ≤ s.depth ∧ s.depth ≤ 16) ∧ 1 ≤ s.windowSize ∧ s.count ≤ Config.nmax ∧ s.reducedCount ≤ Config.nmax := by
  simp [allHold, restoreChecks, bits_holds_iff, window_holds_iff, len_holds_iff, rlen_holds_iff]

/-- The stage relies on BITS, WINDOW and LEN, and not on RLEN (R114). -/
theorem allHold_restoreDomain_iff : allHold restoreDomain s = true ↔
    (1 ≤ s.depth ∧ s.depth ≤ 16) ∧ 1 ≤ s.windowSize ∧ s.count ≤ Config.nmax := by
  simp [allHold, restoreDomain, bits_holds_iff, window_holds_iff, len_holds_iff]

/-- BITS is checked first, so an illegal BITS decides the error whatever the others hold (R154). -/
theorem firstFailure_restoreChecks_bits (h : ¬(1 ≤ s.depth ∧ s.depth ≤ 16)) :
    firstFailure restoreChecks s = some .badBits :=
  firstFailure_cons_of_fails (Bool.eq_false_iff.2 (mt bits_holds_iff.1 h))

theorem firstFailure_restoreChecks_window (hbits : 1 ≤ s.depth ∧ s.depth ≤ 16) (hwin : ¬1 ≤ s.windowSize) :
    firstFailure restoreChecks s = some .badWindow := by
  rw [restoreChecks, firstFailure_cons_of_holds (bits_holds_iff.2 hbits)]
  exact firstFailure_cons_of_fails (Bool.eq_false_iff.2 (mt window_holds_iff.1 hwin))

theorem firstFailure_restoreChecks_len (hbits : 1 ≤ s.depth ∧ s.depth ≤ 16) (hwin : 1 ≤ s.windowSize)
    (hlen : Config.nmax < s.count) : firstFailure restoreChecks s = some .badLength := by
  rw [restoreChecks, firstFailure_cons_of_holds (bits_holds_iff.2 hbits),
    firstFailure_cons_of_holds (window_holds_iff.2 hwin)]
  exact firstFailure_cons_of_fails (Bool.eq_false_iff.2 (mt len_holds_iff.1 (Nat.not_le.2 hlen)))

theorem firstFailure_restoreChecks_rlen (hbits : 1 ≤ s.depth ∧ s.depth ≤ 16) (hwin : 1 ≤ s.windowSize)
    (hlen : s.count ≤ Config.nmax) (hrlen : Config.nmax < s.reducedCount) :
    firstFailure restoreChecks s = some .badReducedLength := by
  rw [restoreChecks, firstFailure_cons_of_holds (bits_holds_iff.2 hbits),
    firstFailure_cons_of_holds (window_holds_iff.2 hwin), firstFailure_cons_of_holds (len_holds_iff.2 hlen)]
  exact firstFailure_cons_of_fails (Bool.eq_false_iff.2 (mt rlen_holds_iff.1 (Nat.not_le.2 hrlen)))

@[simp] theorem restoreEffect_phase : (restoreEffect s).phase = bif s.chain then .clamping else .done := by
  simp [restoreEffect]
@[simp] theorem restoreEffect_err : (restoreEffect s).err = s.err := by simp [restoreEffect]
@[simp] theorem restoreEffect_chain : (restoreEffect s).chain = s.chain := by simp [restoreEffect]
@[simp] theorem restoreEffect_rlen : (restoreEffect s).rlen = s.rlen := by simp [restoreEffect]

theorem restoreEffect_sameOperands : SameOperands s (restoreEffect s) := by simp [SameOperands, restoreEffect]

theorem restoreEffect_sameOutside : SameOutside s (restoreEffect s) := by simp [SameOutside, restoreEffect]

/-- R114: RST[0..L) holds the restored sequence after the stage; RED holds 16-bit values, so none wraps (R34). -/
theorem restoreEffect_memRead_rst (h : 1 ≤ s.depth) : (restoreEffect s).memRead .rst 0 s.count =
    restore (s.memRead .red 0 s.reducedCount) s.count s.depth s.windowSize := by
  rw [restoreEffect, advance_memRead]
  refine memRead_memWrite_of_length s (restore_length ..) fun x hx => restore_inRange h (fun v hv => ?_) hx
  have hred : Buf.red.inRange v := memRead_inRange s hv
  exact hred

/-- R113, R114: one element of RST after the stage. -/
theorem restoreEffect_readInt_rst (h : 1 ≤ s.depth) {i : Nat} (hi : i < s.count) : (restoreEffect s).readInt .rst i =
    if i / s.windowSize < s.reducedCount then s.readInt .red (i / s.windowSize) * 2 ^ (16 - s.depth) else 0 := by
  have hget := congrArg (·[i]?) (restoreEffect_memRead_rst h)
  simp only [getElem?_memRead, getElem?_restore hi, if_pos hi, Nat.zero_add, Option.some.injEq] at hget
  rw [hget, idiv]
  split_ifs <;> rfl

/-- R114: the stage writes no element but RST[0..L). -/
theorem restoreEffect_sameElementsBut : SameElementsBut .rst s.count s (restoreEffect s) := by
  intro c i h
  rw [restoreEffect, advance_readElem]
  exact memWrite_sameBut s .rst _ c i (by rwa [restore_length])

/-- In RESTORING with BITS, WINDOW and LEN legal, SEQ's turn is the effect of RESTORE (R114, R136). -/
theorem seqTurn_restoring (hp : s.phase = .restoring) (hbits : 1 ≤ s.depth ∧ s.depth ≤ 16) (hwin : 1 ≤ s.windowSize)
    (hlen : s.count ≤ Config.nmax) : seqTurn s = .next (restoreEffect s) := by
  simp only [seqTurn, hp]
  exact runStage_of_allHold (allHold_restoreDomain_iff.2 ⟨hbits, hwin, hlen⟩)

end RestorerStage

/-- Settles O32: RESTORE is an issued command with the checks of all four operands, and its stage is `restoreEffect`. -/
theorem restoreCommand : Obligations.RestoreCommand := by
  unfold Obligations.RestoreCommand
  refine ⟨decode_encode .restore, fun s hp hbits hwin hlen => ?stage, fun s hrest =>
    ⟨fun hbits hwin hlen hrlen => ?accepted, fun hbits => ?badBits, fun hbits hwin => ?badWindow,
      fun hbits hwin hlen => ?badLength, fun hbits hwin hlen hrlen => ?badReducedLength⟩⟩
  case stage =>
    exact ⟨restoreEffect s, seqTurn_restoring hp hbits hwin hlen, by simp [Bool.cond_eq_ite],
      fun i => restoreEffect_readInt_rst hbits.1⟩
  case accepted =>
    refine ⟨s.start .restoring false, restoreEffect (s.start .restoring false),
      issue_accepted hrest (allHold_restoreChecks_iff.2 ⟨hbits, hwin, hlen, hrlen⟩), rfl,
      seqTurn_restoring rfl hbits hwin hlen, restoreEffect_phase, restoreEffect_chain, restoreEffect_err,
      fun i hi => ?_, fun c i h => ?_, restoreEffect_sameOperands, restoreEffect_rlen, restoreEffect_olen,
      restoreEffect_sameOutside⟩
    · simpa using restoreEffect_readInt_rst (s := s.start .restoring false) hbits.1 hi
    · exact (restoreEffect_sameElementsBut c i h).trans (start_readElem ..)
  case badBits =>
    exact issue_rejected hrest (firstFailure_restoreChecks_bits hbits)
  case badWindow =>
    exact issue_rejected hrest (firstFailure_restoreChecks_window hbits hwin)
  case badLength =>
    exact issue_rejected hrest (firstFailure_restoreChecks_len hbits hwin hlen)
  case badReducedLength =>
    exact issue_rejected hrest (firstFailure_restoreChecks_rlen hbits hwin hlen hrlen)

end Sys2Proof.Machine

/-! SUPPORT. The packer's clip, byte layout and packed sequence (43_packer.md R120 to R123), its stage and command
(R124), and obligations O33, O35 and O40. -/

namespace Sys2Proof.Machine

section PackedSequence

variable {t : List Int} {v : Int}

/-- R120: a clipped value is a 16-bit one, the encoder's precondition. -/
theorem clamp16_inS16 (v : Int) : InS16 (clamp16 v) := clamp_bounds v (by decide)

theorem clamp16_of_inS16 (h : InS16 v) : clamp16 v = v := clamp_of_mem h.1 h.2

/-- R122: a sequence of 16-bit values raises no `PackError`. -/
theorem encodeSamples_of_inS16 (h : ∀ v ∈ t, InS16 v) : encodeSamples t = .ok (t.flatMap encode16) := if_pos h

theorem clampAndPack_eq_flatMap_encode16 (t : List Int) : clampAndPack t = (t.map clamp16).flatMap encode16 :=
  (List.flatMap_map ..).symm

/-- R123: packing is the clip, then the encoder. -/
theorem encodeSamples_map_clamp16 (t : List Int) : encodeSamples (t.map clamp16) = .ok (clampAndPack t) := by
  have hclipped : ∀ v ∈ t.map clamp16, InS16 v := List.forall_mem_map.2 fun v _ => clamp16_inS16 v
  rw [encodeSamples_of_inS16 hclipped, clampAndPack_eq_flatMap_encode16]

/-- Two bytes per sample. -/
@[simp] theorem clampAndPack_length (t : List Int) : (clampAndPack t).length = 2 * t.length := by
  have hpair : ∀ v, (encode16 (clamp16 v)).length = 2 := fun _ => rfl
  simp only [clampAndPack, List.length_flatMap, hpair, List.map_const', List.sum_replicate, smul_eq_mul, Nat.mul_comm]

/-- R121: the two bytes as numbers, the low eight bits of the two's-complement pattern and the next eight. -/
theorem encode16_map_toNat (v : Int) :
    (encode16 v).map (fun p => (p.toNat : Int)) = [v % 256, v % 65536 / 256] := by
  have hcode : ((BitVec.ofInt 16 v).toNat : Int) = v % 65536 := by rw [BitVec.toNat_ofInt]; omega
  simp only [encode16, List.map_cons, List.map_nil, BitVec.extractLsb'_toNat, Nat.shiftRight_eq_div_pow]
  congr 2 <;> omega

/-- The packed bytes as numbers, a pair for each sample. -/
theorem clampAndPack_map_toNat (t : List Int) : (clampAndPack t).map (fun p => (p.toNat : Int)) =
    t.flatMap fun v => [clamp16 v % 256, clamp16 v % 65536 / 256] := by
  simp only [clampAndPack, List.map_flatMap, encode16_map_toNat]

/-- In a sequence of pairs, pair `i` stands at positions `2 * i` and `2 * i + 1`. -/
theorem getElem?_flatMap_pair {α β : Type} (f g : α → β) (xs : List α) (i : Nat) :
    (xs.flatMap fun x => [f x, g x])[2 * i]? = xs[i]?.map f ∧
    (xs.flatMap fun x => [f x, g x])[2 * i + 1]? = xs[i]?.map g := by
  induction xs generalizing i with
  | nil => simp
  | cons x xs ih =>
    cases i with
    | zero => simp
    | succ i => simpa [Nat.mul_succ] using ih i

end PackedSequence

/-- Settles O33: the clip is `clamp` between the 16-bit bounds, and a clipped value is one the clip leaves as it is. -/
theorem clampSixteenClips : Obligations.ClampSixteenClips := by
  unfold Obligations.ClampSixteenClips
  intro v
  exact ⟨rfl, clamp16_of_inS16, clamp16_of_inS16 (clamp16_inS16 v)⟩

/-- Settles O35: the clip establishes the encoder's precondition. -/
theorem clampAndPackIsClipThenEncode : Obligations.ClampAndPackIsClipThenEncode := by
  unfold Obligations.ClampAndPackIsClipThenEncode
  exact fun t => ⟨encodeSamples_map_clamp16 t, clampAndPack_length t⟩

section PackerStage

variable {s : State}

theorem firstFailure_packChecks (hlen : Config.nmax < s.count) : firstFailure packChecks s = some .badLength :=
  firstFailure_cons_of_fails (Bool.eq_false_iff.2 (mt len_holds_iff.1 (Nat.not_le.2 hlen)))

@[simp] theorem packEffect_phase : (packEffect s).phase = .done := rfl
@[simp] theorem packEffect_chain : (packEffect s).chain = false := rfl
@[simp] theorem packEffect_err : (packEffect s).err = s.err := by simp [packEffect]
@[simp] theorem packEffect_rlen : (packEffect s).rlen = s.rlen := by simp [packEffect]
@[simp] theorem packEffect_draw : (packEffect s).draw = s.draw := by simp [packEffect]

theorem packEffect_sameOperands : SameOperands s (packEffect s) := by simp [SameOperands, packEffect]

theorem packEffect_sameOutside : SameOutside s (packEffect s) := by simp [SameOutside, packEffect]

/-- R124: OLEN holds the number of bytes written. -/
theorem packEffect_olen_toNat (hlen : s.count ≤ Config.nmax) : (packEffect s).olen.toNat = 2 * s.count := by
  rw [packEffect_olen, toNat_ofNat_two_mul hlen]

/-- The stage's buffers are those of writing the packed bytes to OUT. -/
theorem packEffect_buf (b : Buf) : (packEffect s).buf b =
    (s.memWrite .out 0 ((clampAndPack (s.memRead .rst 0 s.count)).map fun p => (p.toNat : Int))).buf b := by
  rw [packEffect, finish_buf, storePacked_buf]

/-- R124: OUT[0..2n) holds the packed bytes after the stage. -/
theorem packEffect_memRead_out : (packEffect s).memRead .out 0 (2 * s.count) =
    (clampAndPack (s.memRead .rst 0 s.count)).map fun p => (p.toNat : Int) := by
  rw [memRead_congr (packEffect_buf .out) packEffect_draw]
  exact memRead_memWrite_of_length s (by simp) (List.forall_mem_map.2 fun p _ => toNat_inByte p)

/-- R121, R124: the two bytes of OUT that hold one clipped sample after the stage. -/
theorem packEffect_readInt_out {i : Nat} (hi : i < s.count) :
    (packEffect s).readInt .out (2 * i) = clamp16 (s.readInt .rst i) % 256 ∧
    (packEffect s).readInt .out (2 * i + 1) = clamp16 (s.readInt .rst i) % 65536 / 256 := by
  have hbyte : ∀ j < 2 * s.count, ((clampAndPack (s.memRead .rst 0 s.count)).map fun p => (p.toNat : Int))[j]? =
      some ((packEffect s).readInt .out j) := fun j hj => by
    rw [← packEffect_memRead_out, getElem?_memRead, if_pos hj, Nat.zero_add]
  have hsample : (s.memRead .rst 0 s.count)[i]? = some (s.readInt .rst i) := by
    rw [getElem?_memRead, if_pos hi, Nat.zero_add]
  have hpair := getElem?_flatMap_pair (fun v => clamp16 v % 256) (fun v => clamp16 v % 65536 / 256)
    (s.memRead .rst 0 s.count) i
  rw [← clampAndPack_map_toNat, hbyte _ (by omega), hbyte _ (by omega), hsample] at hpair
  exact hpair.imp Option.some.inj Option.some.inj

/-- R124: the stage writes no element but OUT[0..2n). -/
theorem packEffect_sameElementsBut : SameElementsBut .out (2 * s.count) s (packEffect s) := by
  intro c i h
  rw [readElem_congr (packEffect_buf c) packEffect_draw]
  exact memWrite_sameBut s .out _ c i (by simpa using h)

end PackerStage

/-- Settles O40: PACK is an issued command with the check of LEN, and its stage is `packEffect`. -/
theorem packCommand : Obligations.PackCommand := by
  unfold Obligations.PackCommand
  refine ⟨decode_encode .pack, fun s hp hlen => ?stage, fun s hrest =>
    ⟨fun hlen => ?accepted, fun hlen => ?badLength⟩⟩
  case stage =>
    exact ⟨packEffect s, seqTurn_clamping hp hlen, packEffect_phase, packEffect_chain, packEffect_olen_toNat hlen,
      fun i => packEffect_readInt_out⟩
  case accepted =>
    refine ⟨s.start .clamping false, packEffect (s.start .clamping false),
      issue_accepted hrest (allHold_packChecks_iff.2 hlen), rfl, seqTurn_clamping rfl hlen, packEffect_phase,
      packEffect_chain, packEffect_err, fun i hi => ?_, packEffect_olen_toNat hlen, fun c i h => ?_,
      packEffect_sameOperands, packEffect_rlen, packEffect_sameOutside⟩
    · simpa using packEffect_readInt_out (s := s.start .clamping false) hi
    · exact (packEffect_sameElementsBut c i h).trans (start_readElem ..)
  case badLength =>
    exact issue_rejected hrest (firstFailure_packChecks hlen)

end Sys2Proof.Machine

/-! SUPPORT. HOST's writes on the port (44_sequencer.md R142, R144), a command written while BUSY (R135), the command
CLR (R138), and obligations O9, O11 and O44. -/

namespace Sys2Proof.Machine

section HostWrites

variable {s : State} {c : Word} {r : Reg} {b : Buf} {i : Nat}

/-- A step at which HOST makes an access, on the state from which that move has been consumed (R62). -/
theorem step_of_access {a : HostAction} {rest : List HostMove} (h : s.host = .access a :: rest) :
    step s = hostAccess a (s.setHost rest) := by
  simp only [step, h]

theorem whenNotBusy_of_not_busy (hb : s.busy = false) (res : Result) : whenNotBusy s res = res :=
  if_neg (by simp [hb])

theorem whenNotBusy_of_busy (hb : s.busy = true) (res : Result) : whenNotBusy s res = .refused .accessWhileBusy :=
  if_pos hb

/-- R135: every command is refused while BUSY. -/
theorem exec_busy (hb : s.busy = true) (i : Instr) : exec i s = .refused .accessWhileBusy := by
  cases i <;> exact onCommand_busy hb

theorem writeCommand_of_ok {i : Instr} (h : decode c = .ok i) : writeCommand c s = exec i s := by
  simp only [writeCommand, h]

/-- R135: so is every illegal word, and hence every write to CMD. -/
theorem writeCommand_busy (hb : s.busy = true) (c : Word) : writeCommand c s = .refused .accessWhileBusy := by
  cases h : decode c with
  | ok i => rw [writeCommand_of_ok h, exec_busy hb]
  | error e => rw [writeCommand_of_error h]; exact onCommand_busy hb

/-- The register indices that exist are 0 to 6 (R20). -/
theorem exists_reg_index_eq (h : i ≤ 6) : ∃ r : Reg, r.index = i := by
  interval_cases i
  exacts [⟨.cmd, rfl⟩, ⟨.status, rfl⟩, ⟨.bits, rfl⟩, ⟨.window, rfl⟩, ⟨.len, rfl⟩, ⟨.rlen, rfl⟩, ⟨.olen, rfl⟩]

/-- R142: a write to a register other than CMD stores the word, when not BUSY. -/
theorem regWrite_of_ne_cmd (hr : r ≠ .cmd) (v : Word) :
    regWrite r.index v s = whenNotBusy s (.next (s.storeReg r v)) := by
  cases r with
  | cmd => exact absurd rfl hr
  | status | bits | window | len | rlen | olen => rfl

/-- R146: a register write has no meaning while BUSY. -/
theorem regWrite_busy (hb : s.busy = true) (r : Reg) (v : Word) :
    regWrite r.index v s = .refused .accessWhileBusy := by
  by_cases hr : r = .cmd
  · subst hr
    exact writeCommand_busy hb v
  · rw [regWrite_of_ne_cmd hr, whenNotBusy_of_busy hb]

/-- R142: a step at which HOST writes a register other than CMD, when not BUSY. -/
theorem step_of_regWrite {v : Word} {rest : List HostMove} (hb : s.busy = false) (hr : r ≠ .cmd)
    (h : s.host = .access (.regWrite r.index v) :: rest) : step s = .next ((s.setHost rest).storeReg r v) := by
  rw [step_of_access h, hostAccess, regWrite_of_ne_cmd hr, whenNotBusy_of_not_busy (by simpa using hb)]

/-- R144: a write to an element that exists has a meaning when not BUSY. -/
theorem bufWrite_of_lt (hi : i < b.capacity) (v : BitVec b.width) :
    bufWrite b i v s = whenNotBusy s (.next (if b.hostWritable then s.writeElem b i v else s)) :=
  if_pos (decide_eq_true hi)

/-- HOST can write every buffer but OUT (R30). -/
theorem hostWritable_iff : b.hostWritable = true ↔ b ≠ .out := by cases b <;> decide

end HostWrites

/-- Settles O9: a write to CMD is `writeCommand`, any other register write is `storeReg`, and both need BUSY to be 0. -/
theorem regWriteStoresWholeAndUnchecked : Obligations.RegWriteStoresWholeAndUnchecked := by
  unfold Obligations.RegWriteStoresWholeAndUnchecked
  intro s v rest
  refine ⟨fun i hhost hdec => ?command, fun hb => ?stored, fun hb r hr hhost => ?busy⟩
  case command =>
    rw [step_of_cmdWrite hhost, writeCommand_of_ok hdec]
    rfl
  case stored =>
    simp only [List.forall_mem_cons]
    exact ⟨step_of_regWrite (r := .status) hb nofun, step_of_regWrite (r := .bits) hb nofun,
      step_of_regWrite (r := .window) hb nofun, step_of_regWrite (r := .len) hb nofun,
      step_of_regWrite (r := .rlen) hb nofun, step_of_regWrite (r := .olen) hb nofun, nofun⟩
  case busy =>
    obtain ⟨r, rfl⟩ := exists_reg_index_eq hr
    rw [step_of_access hhost]
    exact regWrite_busy (by simpa using hb) r v

/-- Settles O11: the step is `writeElem` on a buffer that HOST can write, and none on OUT. -/
theorem bufWriteStoresOneElement : Obligations.BufWriteStoresOneElement := by
  unfold Obligations.BufWriteStoresOneElement
  intro s b i v rest hi hhost
  have hstep : step s = whenNotBusy (s.setHost rest)
      (.next (if b.hostWritable then (s.setHost rest).writeElem b i v else s.setHost rest)) := by
    rw [step_of_access hhost, hostAccess, bufWrite_of_lt hi]
  refine ⟨fun hb hout => ?stored, fun hb hout => ?ignored, fun hb => ?busy⟩
  case stored =>
    rw [whenNotBusy_of_not_busy (by simpa using hb), if_pos (hostWritable_iff.2 hout)] at hstep
    refine ⟨_, hstep, readElem_writeElem_same _ b i v, fun c j hne => ?_, ?_⟩
    · rw [readElem_writeElem_other _ v hne, setHost_readElem]
    · simp [SameOperands]
  case ignored =>
    rw [whenNotBusy_of_not_busy (by simpa using hb), if_neg (by simp [hostWritable_iff, hout])] at hstep
    exact hstep
  case busy =>
    rw [hstep, whenNotBusy_of_busy (by simpa using hb)]

section Clr

variable {s : State}

/-- R138: CLR is accepted in IDLE, DONE and FAILED alike. -/
theorem execClr_of_not_busy (h : s.phase = .idle ∨ s.phase = .done ∨ s.phase = .failed) :
    exec .clr s = .next s.clear := by
  obtain hidle | hdone | hfailed := h
  · exact onCommand_atRest (.inl hidle)
  · exact onCommand_atRest (.inr hdone)
  · exact onCommand_failed hfailed

theorem clear_status (s : State) : s.clear.status = 0#32 := rfl

/-- R138: CLR changes nothing in a state that is clear already. -/
theorem clear_eq_self (hp : s.phase = .idle) (he : s.err = .none) (hc : s.chain = false) : s.clear = s := by
  rw [State.clear, ← hp, ← he, ← hc]

end Clr

/-- Settles O44: CLR when not BUSY is `State.clear`, and no command is accepted while BUSY. -/
theorem clrCommand : Obligations.ClrCommand := by
  unfold Obligations.ClrCommand
  refine ⟨decode_encode .clr, fun s => ⟨fun hp => ⟨execClr_of_not_busy hp, fun t ht => ?status⟩,
    fun hp he hc => ?unchanged, fun hb => exec_busy hb .clr⟩⟩
  case status =>
    obtain rfl : s.clear = t := by simpa [execClr_of_not_busy hp] using ht
    exact clear_status s
  case unchanged =>
    rw [execClr_of_not_busy (.inl hp), clear_eq_self hp he hc]

end Sys2Proof.Machine

/-! SUPPORT. RUN's checks, the four states after its stages, and obligation O41 (44_sequencer.md R136, R137). -/

namespace Sys2Proof.Machine

section Frames

variable {s t u : State} {b c : Buf} {n i : Nat}

theorem SameOperands.trans (h : SameOperands s t) (h' : SameOperands t u) : SameOperands s u := by
  obtain ⟨hbits, hwindow, hlen⟩ := h
  obtain ⟨hbits', hwindow', hlen'⟩ := h'
  exact ⟨hbits'.trans hbits, hwindow'.trans hwindow, hlen'.trans hlen⟩

theorem SameOperands.depth_eq (h : SameOperands s t) : t.depth = s.depth := congrArg BitVec.toNat h.1

theorem SameOperands.windowSize_eq (h : SameOperands s t) : t.windowSize = s.windowSize := congrArg BitVec.toNat h.2.1

theorem SameOperands.count_eq (h : SameOperands s t) : t.count = s.count := congrArg BitVec.toNat h.2.2

theorem SameOutside.trans (h : SameOutside s t) (h' : SameOutside t u) : SameOutside s u := by
  obtain ⟨hdraw, hhost, hreceived⟩ := h
  obtain ⟨hdraw', hhost', hreceived'⟩ := h'
  exact ⟨hdraw'.trans hdraw, hhost'.trans hhost, hreceived'.trans hreceived⟩

/-- A block of another buffer than the written one reads as before. -/
theorem SameElementsBut.memRead_other (h : SameElementsBut b n s t) (hc : c ≠ b) (i k : Nat) :
    t.memRead c i k = s.memRead c i k := by
  simp only [State.memRead, State.readInt, h c _ (absurd · hc)]

/-- STATUS is a view of PHASE and ERR (R22). -/
theorem status_congr (hp : t.phase = s.phase) (he : t.err = s.err) : t.status = s.status := by
  simp only [State.status, State.busy, State.isDone, State.isFailed, hp, he]

/-- With ERR 0, STATUS is that of the state after reset in the same phase. -/
theorem status_of_err_none (he : s.err = .none) : s.status = ({ State.reset with phase := s.phase } : State).status :=
  status_congr rfl he

end Frames

section RunChecks

variable {s : State}

/-- RUN's checks are that BITS, WINDOW and LEN are legal (R153). -/
theorem allHold_runChecks_iff :
    allHold runChecks s = true ↔ (1 ≤ s.depth ∧ s.depth ≤ 16) ∧ 1 ≤ s.windowSize ∧ s.count ≤ Config.nmax := by
  simp [allHold, runChecks, bits_holds_iff, window_holds_iff, len_holds_iff]

/-- BITS is checked first, so an illegal BITS decides the error whatever the others hold (R154). -/
theorem firstFailure_runChecks_bits (h : ¬(1 ≤ s.depth ∧ s.depth ≤ 16)) : firstFailure runChecks s = some .badBits :=
  firstFailure_cons_of_fails (Bool.eq_false_iff.2 (mt bits_holds_iff.1 h))

theorem firstFailure_runChecks_window (hbits : 1 ≤ s.depth ∧ s.depth ≤ 16) (hwin : ¬1 ≤ s.windowSize) :
    firstFailure runChecks s = some .badWindow := by
  rw [runChecks, firstFailure_cons_of_holds (bits_holds_iff.2 hbits)]
  exact firstFailure_cons_of_fails (Bool.eq_false_iff.2 (mt window_holds_iff.1 hwin))

theorem firstFailure_runChecks_len (hbits : 1 ≤ s.depth ∧ s.depth ≤ 16) (hwin : 1 ≤ s.windowSize)
    (hlen : Config.nmax < s.count) : firstFailure runChecks s = some .badLength := by
  rw [runChecks, firstFailure_cons_of_holds (bits_holds_iff.2 hbits),
    firstFailure_cons_of_holds (window_holds_iff.2 hwin)]
  exact firstFailure_cons_of_fails (Bool.eq_false_iff.2 (mt len_holds_iff.1 (Nat.not_le.2 hlen)))

end RunChecks

/-! The states of an accepted RUN after each of SEQ's four steps (R137). -/

/-- After QUANTIZING. -/
def State.runQuantized (s : State) : State := quantizeEffect (s.start .quantizing true)

/-- After REDUCING. -/
def State.runReduced (s : State) : State := reduceEffect s.runQuantized

/-- After RESTORING. -/
def State.runRestored (s : State) : State := restoreEffect s.runReduced

/-- After CLAMPING, the end of the RUN. -/
def State.runPacked (s : State) : State := packEffect s.runRestored

section RunStages

variable {s : State}

/-! ### The control state and the registers -/

@[simp] theorem runQuantized_phase : s.runQuantized.phase = .reducing := quantizeEffect_phase
@[simp] theorem runQuantized_chain : s.runQuantized.chain = true := quantizeEffect_chain
@[simp] theorem runQuantized_err : s.runQuantized.err = s.err := quantizeEffect_err
@[simp] theorem runReduced_phase : s.runReduced.phase = .restoring := by simp [State.runReduced]
@[simp] theorem runReduced_chain : s.runReduced.chain = true := by simp [State.runReduced]
@[simp] theorem runReduced_err : s.runReduced.err = s.err := by simp [State.runReduced]
@[simp] theorem runRestored_phase : s.runRestored.phase = .clamping := by simp [State.runRestored]
@[simp] theorem runRestored_err : s.runRestored.err = s.err := by simp [State.runRestored]
@[simp] theorem runPacked_phase : s.runPacked.phase = .done := packEffect_phase
@[simp] theorem runPacked_chain : s.runPacked.chain = false := packEffect_chain
@[simp] theorem runPacked_err : s.runPacked.err = s.err := by simp [State.runPacked]

theorem runQuantized_sameOperands : SameOperands s s.runQuantized := quantizeEffect_sameOperands

theorem runReduced_sameOperands : SameOperands s s.runReduced :=
  runQuantized_sameOperands.trans reduceEffect_sameOperands

theorem runRestored_sameOperands : SameOperands s s.runRestored :=
  runReduced_sameOperands.trans restoreEffect_sameOperands

theorem runPacked_sameOperands : SameOperands s s.runPacked :=
  runRestored_sameOperands.trans packEffect_sameOperands

theorem runPacked_sameOutside : SameOutside s s.runPacked :=
  ((SameOutside.trans quantizeEffect_sameOutside reduceEffect_sameOutside).trans restoreEffect_sameOutside).trans
    packEffect_sameOutside

@[simp] theorem runQuantized_windowSize : s.runQuantized.windowSize = s.windowSize :=
  runQuantized_sameOperands.windowSize_eq
@[simp] theorem runQuantized_count : s.runQuantized.count = s.count := runQuantized_sameOperands.count_eq
@[simp] theorem runReduced_depth : s.runReduced.depth = s.depth := runReduced_sameOperands.depth_eq
@[simp] theorem runReduced_windowSize : s.runReduced.windowSize = s.windowSize := runReduced_sameOperands.windowSize_eq
@[simp] theorem runReduced_count : s.runReduced.count = s.count := runReduced_sameOperands.count_eq
@[simp] theorem runRestored_count : s.runRestored.count = s.count := runRestored_sameOperands.count_eq

/-- RLEN is REDUCING's, whatever it held when RUN was issued (R137). -/
theorem runReduced_reducedCount (hwin : 1 ≤ s.windowSize) :
    s.runReduced.reducedCount = ceildiv s.count s.windowSize := by
  simpa [State.runReduced, State.reducedCount] using reduceEffect_rlen_toNat (s := s.runQuantized) (by simpa using hwin)

theorem runPacked_rlen_toNat (hwin : 1 ≤ s.windowSize) : s.runPacked.rlen.toNat = ceildiv s.count s.windowSize := by
  rw [State.runPacked, packEffect_rlen, State.runRestored, restoreEffect_rlen]
  exact runReduced_reducedCount hwin

theorem runPacked_olen_toNat (hlen : s.count ≤ Config.nmax) : s.runPacked.olen.toNat = 2 * s.count := by
  exact (packEffect_olen_toNat (s := s.runRestored) (by simpa using hlen)).trans (by rw [runRestored_count])

/-! ### SEQ's four turns -/

theorem seqTurn_runStart (hbits : 1 ≤ s.depth ∧ s.depth ≤ 16) (hlen : s.count ≤ Config.nmax) :
    seqTurn (s.start .quantizing true) = .next s.runQuantized := seqTurn_quantizing rfl hbits hlen

theorem seqTurn_runQuantized (hwin : 1 ≤ s.windowSize) (hlen : s.count ≤ Config.nmax) :
    seqTurn s.runQuantized = .next s.runReduced :=
  seqTurn_reducing runQuantized_phase (by simpa using hwin) (by simpa using hlen)

theorem seqTurn_runReduced (hbits : 1 ≤ s.depth ∧ s.depth ≤ 16) (hwin : 1 ≤ s.windowSize)
    (hlen : s.count ≤ Config.nmax) : seqTurn s.runReduced = .next s.runRestored :=
  seqTurn_restoring runReduced_phase (by simpa using hbits) (by simpa using hwin) (by simpa using hlen)

theorem seqTurn_runRestored (hlen : s.count ≤ Config.nmax) : seqTurn s.runRestored = .next s.runPacked :=
  seqTurn_clamping runRestored_phase (by simpa using hlen)

/-- R137: STATUS in turn while the stages run, and at the end. -/
theorem run_status (he : s.err = .none) :
    (s.start .quantizing true).status = 0x09#32 ∧ s.runQuantized.status = 0x0A#32 ∧ s.runReduced.status = 0x0B#32 ∧
      s.runRestored.status = 0x0C#32 ∧ s.runPacked.status = 0x15#32 := by
  have hstatus : ∀ u : State, u.err = s.err → u.status = ({ State.reset with phase := u.phase } : State).status :=
    fun u hu => status_of_err_none (hu.trans he)
  rw [hstatus _ (start_err ..), hstatus _ runQuantized_err, hstatus _ runReduced_err, hstatus _ runRestored_err,
    hstatus _ runPacked_err, start_phase, runQuantized_phase, runReduced_phase, runRestored_phase, runPacked_phase]
  decide

/-! ### What each stage leaves unchanged, and the result in each buffer at the end -/

theorem runQuantized_sameElementsBut : SameElementsBut .q s.count s s.runQuantized := fun c i h =>
  (quantizeEffect_sameElementsBut c i h).trans (start_readElem ..)

theorem runReduced_sameElementsBut (hwin : 1 ≤ s.windowSize) :
    SameElementsBut .red (ceildiv s.count s.windowSize) s.runQuantized s.runReduced := by
  simpa [State.runReduced] using reduceEffect_sameElementsBut (s := s.runQuantized) (by simpa using hwin)

theorem runRestored_sameElementsBut : SameElementsBut .rst s.count s.runReduced s.runRestored := by
  simpa [State.runRestored] using restoreEffect_sameElementsBut (s := s.runReduced)

theorem runPacked_sameElementsBut : SameElementsBut .out (2 * s.count) s.runRestored s.runPacked := by
  simpa [State.runPacked] using packEffect_sameElementsBut (s := s.runRestored)

/-- R137: an element beyond the range that RUN writes in its buffer reads as before. -/
theorem runPacked_readElem_unwritten (hwin : 1 ≤ s.windowSize) {c : Buf} {i : Nat} (hq : c = .q → s.count ≤ i)
    (hred : c = .red → ceildiv s.count s.windowSize ≤ i) (hrst : c = .rst → s.count ≤ i)
    (hout : c = .out → 2 * s.count ≤ i) : s.runPacked.readElem c i = s.readElem c i :=
  calc s.runPacked.readElem c i
    _ = s.runRestored.readElem c i := runPacked_sameElementsBut c i hout
    _ = s.runReduced.readElem c i := runRestored_sameElementsBut c i hrst
    _ = s.runQuantized.readElem c i := runReduced_sameElementsBut hwin c i hred
    _ = s.readElem c i := runQuantized_sameElementsBut c i hq

/-- CLAMPING writes no sample buffer, so RST is what RESTORING left. -/
theorem runPacked_memRead_rst_eq (n : Nat) : s.runPacked.memRead .rst 0 n = s.runRestored.memRead .rst 0 n :=
  runPacked_sameElementsBut.memRead_other (by decide) 0 n

/-- RED is what REDUCING left. -/
theorem runPacked_memRead_red_eq (n : Nat) : s.runPacked.memRead .red 0 n = s.runReduced.memRead .red 0 n :=
  calc s.runPacked.memRead .red 0 n
    _ = s.runRestored.memRead .red 0 n := runPacked_sameElementsBut.memRead_other (by decide) 0 n
    _ = s.runReduced.memRead .red 0 n := runRestored_sameElementsBut.memRead_other (by decide) 0 n

/-- Q is what QUANTIZING left. -/
theorem runPacked_memRead_q_eq (hwin : 1 ≤ s.windowSize) (n : Nat) :
    s.runPacked.memRead .q 0 n = s.runQuantized.memRead .q 0 n :=
  calc s.runPacked.memRead .q 0 n
    _ = s.runRestored.memRead .q 0 n := runPacked_sameElementsBut.memRead_other (by decide) 0 n
    _ = s.runReduced.memRead .q 0 n := runRestored_sameElementsBut.memRead_other (by decide) 0 n
    _ = s.runQuantized.memRead .q 0 n := (runReduced_sameElementsBut hwin).memRead_other (by decide) 0 n

/-- Q holds the quantized SRC. -/
theorem runPacked_memRead_q (hbits : 1 ≤ s.depth ∧ s.depth ≤ 16) (hwin : 1 ≤ s.windowSize) :
    s.runPacked.memRead .q 0 s.count = quantize (s.memRead .src 0 s.count) s.depth := by
  rw [runPacked_memRead_q_eq hwin]
  simpa [State.runQuantized] using quantizeEffect_memRead_q (s := s.start .quantizing true) hbits.2

/-- RED holds the reduced Q. -/
theorem runPacked_memRead_red (hwin : 1 ≤ s.windowSize) :
    s.runPacked.memRead .red 0 (ceildiv s.count s.windowSize) =
      reduce (s.runPacked.memRead .q 0 s.count) s.windowSize := by
  rw [runPacked_memRead_red_eq, runPacked_memRead_q_eq hwin]
  simpa [State.runReduced] using reduceEffect_memRead_red (s := s.runQuantized) (by simpa using hwin)

/-- RST holds the restored RED. -/
theorem runPacked_memRead_rst (hbits : 1 ≤ s.depth ∧ s.depth ≤ 16) (hwin : 1 ≤ s.windowSize) :
    s.runPacked.memRead .rst 0 s.count =
      restore (s.runPacked.memRead .red 0 (ceildiv s.count s.windowSize)) s.count s.depth s.windowSize := by
  rw [runPacked_memRead_rst_eq, runPacked_memRead_red_eq, ← runReduced_reducedCount hwin]
  simpa [State.runRestored] using restoreEffect_memRead_rst (s := s.runReduced) (by simpa using hbits.1)

/-- OUT holds the packed RST. -/
theorem runPacked_memRead_out : s.runPacked.memRead .out 0 (2 * s.count) =
    (clampAndPack (s.runPacked.memRead .rst 0 s.count)).map fun p => (p.toNat : Int) := by
  rw [runPacked_memRead_rst_eq]
  simpa [State.runPacked] using packEffect_memRead_out (s := s.runRestored)

end RunStages

/-- Settles O41: RUN is an issued command with the checks of BITS, WINDOW and LEN, and SEQ's turns lead through
`runQuantized`, `runReduced` and `runRestored` to `runPacked`. -/
theorem runCommand : Obligations.RunCommand := by
  unfold Obligations.RunCommand
  refine ⟨decode_encode .run, fun s hrest => ⟨fun hbits hwin hlen => ?accepted, fun hbits => ?badBits,
    fun hbits hwin => ?badWindow, fun hbits hwin hlen => ?badLength⟩⟩
  case accepted =>
    have hunwritten {c : Buf} {i : Nat} := runPacked_readElem_unwritten hwin (c := c) (i := i)
    exact ⟨s.start .quantizing true, s.runQuantized, s.runReduced, s.runRestored, s.runPacked,
      issue_accepted hrest (allHold_runChecks_iff.2 ⟨hbits, hwin, hlen⟩), rfl,
      seqTurn_runStart hbits hlen, seqTurn_runQuantized hwin hlen, seqTurn_runReduced hbits hwin hlen,
      seqTurn_runRestored hlen, run_status, runPacked_phase, runPacked_chain, runPacked_err,
      runPacked_memRead_q hbits hwin, runPacked_memRead_red hwin, runPacked_rlen_toNat hwin,
      runPacked_memRead_rst hbits hwin, runPacked_memRead_out, runPacked_olen_toNat hlen,
      fun i => hunwritten nofun nofun nofun nofun,
      fun i hi => ⟨hunwritten (fun _ => hi) nofun nofun nofun, hunwritten nofun nofun (fun _ => hi) nofun⟩,
      fun i hi => hunwritten nofun (fun _ => hi) nofun nofun,
      fun i hi => hunwritten nofun nofun nofun (fun _ => hi),
      runPacked_sameOperands, runPacked_sameOutside⟩
  case badBits =>
    exact issue_rejected hrest (firstFailure_runChecks_bits hbits)
  case badWindow =>
    exact issue_rejected hrest (firstFailure_runChecks_window hbits hwin)
  case badLength =>
    exact issue_rejected hrest (firstFailure_runChecks_len hbits hwin hlen)

end Sys2Proof.Machine

/-! SUPPORT. The operand checks as a chain of tests, STATUS after a failure entry, and obligations O45 and O46
(60_exceptions.md R150, R153, R154, R156). -/

namespace Sys2Proof.Machine

section CheckChain

variable {s : State} {cs : List Check} {p : Phase} {chain : Bool}

/-- R135: at rest the outcome of a command is decided by its checks. -/
theorem issue_atRest (h : s.phase = .idle ∨ s.phase = .done) :
    issue cs p chain s = .next (checkAndStart cs p chain s) := onCommand_atRest h

theorem checkAndStart_nil : checkAndStart [] p chain s = s.start p chain := rfl

/-- R154: a check that fails is reported and ends the chain; `P` is what the check compares. -/
theorem checkAndStart_cons {c : Check} {P : Prop} [Decidable P] (h : c.holds s = true ↔ P) :
    checkAndStart (c :: cs) p chain s = if ¬P then s.raise c.error else checkAndStart cs p chain s := by
  by_cases hP : P
  · rw [if_neg (not_not_intro hP), checkAndStart, firstFailure_cons_of_holds (h.2 hP), ← checkAndStart]
  · rw [if_pos hP, checkAndStart, firstFailure_cons_of_fails (Bool.eq_false_iff.2 (mt h.1 hP))]

theorem checkAndStart_quantChecks : checkAndStart quantChecks p chain s =
    if ¬(1 ≤ s.depth ∧ s.depth ≤ 16) then s.raise .badBits
    else if ¬s.count ≤ Config.nmax then s.raise .badLength else s.start p chain := by
  rw [quantChecks, checkAndStart_cons bits_holds_iff, checkAndStart_cons len_holds_iff, checkAndStart_nil]
  rfl

theorem checkAndStart_reduceChecks : checkAndStart reduceChecks p chain s =
    if ¬1 ≤ s.windowSize then s.raise .badWindow
    else if ¬s.count ≤ Config.nmax then s.raise .badLength else s.start p chain := by
  rw [reduceChecks, checkAndStart_cons window_holds_iff, checkAndStart_cons len_holds_iff, checkAndStart_nil]
  rfl

theorem checkAndStart_restoreChecks : checkAndStart restoreChecks p chain s =
    if ¬(1 ≤ s.depth ∧ s.depth ≤ 16) then s.raise .badBits
    else if ¬1 ≤ s.windowSize then s.raise .badWindow
    else if ¬s.count ≤ Config.nmax then s.raise .badLength
    else if ¬s.reducedCount ≤ Config.nmax then s.raise .badReducedLength else s.start p chain := by
  rw [restoreChecks, checkAndStart_cons bits_holds_iff, checkAndStart_cons window_holds_iff,
    checkAndStart_cons len_holds_iff, checkAndStart_cons rlen_holds_iff, checkAndStart_nil]
  rfl

theorem checkAndStart_packChecks : checkAndStart packChecks p chain s =
    if ¬s.count ≤ Config.nmax then s.raise .badLength else s.start p chain := by
  rw [packChecks, checkAndStart_cons len_holds_iff, checkAndStart_nil]
  rfl

theorem checkAndStart_runChecks : checkAndStart runChecks p chain s =
    if ¬(1 ≤ s.depth ∧ s.depth ≤ 16) then s.raise .badBits
    else if ¬1 ≤ s.windowSize then s.raise .badWindow
    else if ¬s.count ≤ Config.nmax then s.raise .badLength else s.start p chain := by
  rw [runChecks, checkAndStart_cons bits_holds_iff, checkAndStart_cons window_holds_iff,
    checkAndStart_cons len_holds_iff, checkAndStart_nil]
  rfl

end CheckChain

/-- Settles O45: at rest a command's outcome is `checkAndStart` of its list of checks, which is the chain of tests in
the list's order. -/
theorem checksAreMadeInOrder : Obligations.ChecksAreMadeInOrder := by
  unfold Obligations.ChecksAreMadeInOrder
  intro s hrest
  exact ⟨(issue_atRest hrest).trans (congrArg _ checkAndStart_quantChecks),
    (issue_atRest hrest).trans (congrArg _ checkAndStart_reduceChecks),
    (issue_atRest hrest).trans (congrArg _ checkAndStart_restoreChecks),
    (issue_atRest hrest).trans (congrArg _ checkAndStart_packChecks),
    (issue_atRest hrest).trans (congrArg _ checkAndStart_runChecks),
    execClr_of_not_busy (hrest.imp_right .inl)⟩

/-- R150: the codes 7 to 15 are never held. -/
theorem ErrCode.code_le (e : ErrCode) : e.code ≤ 6 := by cases e <;> decide

/-- R22: PHASE 6 and FAILED give 0x26, and ERR stands in bits 11:8. -/
theorem raise_status (s : State) (e : ErrCode) : (s.raise e).status = BitVec.ofNat 32 (0x26 + 256 * e.code) := rfl

/-- Settles O46: the writes are those of `State.raise`, and the view STATUS fits in its 32 bits. -/
theorem failureEntryWritesPhaseErrChain : Obligations.FailureEntryWritesPhaseErrChain := by
  unfold Obligations.FailureEntryWritesPhaseErrChain
  intro s e
  refine ⟨rfl, ?_⟩
  have hfits : 0x26 + 256 * e.code < 2 ^ 32 := by have := e.code_le; omega
  rw [raise_status, BitVec.toNat_ofNat, Nat.mod_eq_of_lt hfits]

end Sys2Proof.Machine

/-! SUPPORT. What a step does to the block, once for every step; the invariant as one lemma per field; and obligations O58
and O59 (10_state.md section 4, 44_sequencer.md section 1). -/

namespace Sys2Proof.Machine

/-- What a step does to the block, by the agent that takes it, as far as the lemmas about a step need it. HOST's move is
consumed first (R62), so each effect is on the state with the moves that remain. -/
inductive BlockStep (s : State) : State → Prop where
  /-- SEQ's turn. -/
  | turn {rest : List HostMove} {t : State} (hseq : seqTurn (s.setHost rest) = .next t) : BlockStep s t
  /-- A read, a poll or an ignored write: nothing but HOST's own fields changes. -/
  | hostOnly (moves : List HostMove) (values : List PortValue) :
    BlockStep s { s with host := moves, received := values }
  /-- HOST asserts Reset. -/
  | reset {rest : List HostMove} (hhost : s.host = .access .reset :: rest) : BlockStep s (s.setHost rest).resetBlock
  /-- HOST writes a word to CMD. -/
  | command {c : Word} {rest : List HostMove} {t : State} (hhost : s.host = .access (.regWrite 0 c) :: rest)
    (hcmd : writeCommand c (s.setHost rest) = .next t) : BlockStep s t
  /-- HOST writes a register other than CMD. -/
  | storeReg {r : Reg} {v : Word} {rest : List HostMove} (hhost : s.host = .access (.regWrite r.index v) :: rest)
    (hr : r ≠ .cmd) (hbusy : s.busy = false) : BlockStep s ((s.setHost rest).storeReg r v)
  /-- HOST writes an element. -/
  | writeElem {b : Buf} {i : Nat} {v : BitVec b.width} {rest : List HostMove}
    (hhost : s.host = .access (.bufWrite b i v) :: rest) (hbusy : s.busy = false) (hi : i < b.capacity)
    (hout : b ≠ .out) : BlockStep s ((s.setHost rest).writeElem b i v)

section Steps

variable {s t : State}

theorem Reg.index_of_ofIndex {i : Nat} {r : Reg} (h : Reg.ofIndex i = some r) : r.index = i := by
  unfold Reg.ofIndex at h
  split at h <;> cases h <;> rfl

/-- Every access that has a meaning is one of the kinds of `BlockStep`. -/
theorem blockStep_of_hostAccess {a : HostAction} {rest : List HostMove} (hhost : s.host = .access a :: rest)
    (h : hostAccess a (s.setHost rest) = .next t) : BlockStep s t := by
  obtain ⟨rfl, rfl⟩ | ⟨i, r, -, -, -, rfl⟩ | ⟨c, rfl, hcmd⟩ | ⟨i, v, r, rfl, hindex, hr, hbusy, rfl⟩ |
    ⟨b, i, -, -, -, rfl⟩ | ⟨b, i, v, rfl, hi, hbusy, rfl⟩ := hostAccess_cases h
  · exact .reset hhost
  · exact .hostOnly rest _
  · exact .command hhost hcmd
  · obtain rfl := Reg.index_of_ofIndex hindex
    exact .storeReg hhost hr hbusy
  · exact .hostOnly rest _
  · split_ifs with hout
    · exact .writeElem hhost hbusy hi (hostWritable_iff.1 hout)
    · exact .hostOnly rest s.received

/-- Every step is one of the kinds of `BlockStep`. -/
theorem blockStep_of_step (h : step s = .next t) : BlockStep s t := by
  obtain ⟨hhost, hseq⟩ | ⟨rest, -, hseq⟩ | ⟨rest, -, rfl⟩ | ⟨a, rest, hhost, hacc⟩ := step_cases h
  · exact .turn (rest := s.host) hseq
  · exact .turn hseq
  · unfold pollStatus
    split
    · exact .hostOnly ..
    · exact .hostOnly ..
  · exact blockStep_of_hostAccess hhost hacc

/-- A command written to CMD changes PHASE, ERR and CHAIN and nothing else (R135, R138, R155). -/
theorem exec_writes {i : Instr} (h : exec i s = .next t) :
    t = { s with phase := t.phase, err := t.err, chain := t.chain } := by
  obtain ⟨-, -, rfl⟩ | ⟨-, -, rfl⟩ | ⟨-, -, c, -, rfl⟩ | ⟨-, hstart⟩ := exec_cases h
  · rfl
  · rfl
  · rfl
  · obtain ⟨-, -, rfl⟩ | ⟨-, -, rfl⟩ | ⟨-, -, rfl⟩ | ⟨-, -, rfl⟩ | ⟨-, -, rfl⟩ := hstart <;> rfl

/-- So does any word written to CMD. -/
theorem writeCommand_writes {c : Word} (h : writeCommand c s = .next t) :
    t = { s with phase := t.phase, err := t.err, chain := t.chain } := by
  obtain ⟨i, -, hexec⟩ | ⟨-, ⟨-, rfl⟩ | ⟨-, rfl⟩⟩ := writeCommand_cases h
  · exact exec_writes hexec
  · rfl
  · rfl

theorem writeCommand_buf {c : Word} (h : writeCommand c s = .next t) (b : Buf) : t.buf b = s.buf b := by
  rw [writeCommand_writes h]
  cases b <;> rfl

end Steps

section Buffers

variable {s t : State}

/-- The part of the invariant about storage: canonical form, and no element outside the index range (R51). -/
def State.BuffersFit (s : State) : Prop := ∀ b, (s.buf b).wf = true ∧ (s.buf b).within b.capacity

theorem State.BuffersFit.congr (h : s.BuffersFit) (hbuf : ∀ b, t.buf b = s.buf b) : t.BuffersFit := fun b => by
  rw [hbuf b]
  exact h b

theorem State.BuffersFit.memWrite (h : s.BuffersFit) {b : Buf} {vs : List Int} (hlen : vs.length ≤ b.capacity) :
    (s.memWrite b 0 vs).BuffersFit := fun c =>
  ⟨memWrite_wf s b 0 vs (fun c => (h c).1) c, memWrite_within s b 0 vs (fun c => (h c).2) (by omega) c⟩

theorem State.BuffersFit.writeElem (h : s.BuffersFit) {b : Buf} {i : Nat} (v : BitVec b.width) (hi : i < b.capacity) :
    (s.writeElem b i v).BuffersFit := fun c =>
  ⟨writeElem_wf s b i v (fun c => (h c).1) c, writeElem_within s b i v (fun c => (h c).2) hi c⟩

theorem resetBlock_buffersFit (s : State) : s.resetBlock.BuffersFit := fun b => by
  rw [resetBlock_buf]
  exact ⟨rfl, nofun⟩

/-- The stage's buffers are those of writing the quantized samples to Q. -/
theorem quantizeEffect_buf (b : Buf) : (quantizeEffect s).buf b =
    (s.memWrite .q 0 (quantize (s.memRead .src 0 s.count) s.depth)).buf b := by
  rw [quantizeEffect, advance_buf]

/-- The stage's buffers are those of writing the restored samples to RST. -/
theorem restoreEffect_buf (b : Buf) : (restoreEffect s).buf b =
    (s.memWrite .rst 0 (restore (s.memRead .red 0 s.reducedCount) s.count s.depth s.windowSize)).buf b := by
  rw [restoreEffect, advance_buf]

/-- A stage writes inside its buffer, because LEN is legal (R34). -/
theorem seqTurn_buffersFit (h : s.BuffersFit) (hseq : seqTurn s = .next t) : t.BuffersFit := by
  obtain ⟨-, rfl⟩ | ⟨-, hchecks, rfl⟩ | ⟨-, hchecks, rfl⟩ | ⟨-, hchecks, rfl⟩ | ⟨-, hchecks, rfl⟩ := seqTurn_cases hseq
  · exact h
  · obtain ⟨-, hlen⟩ := allHold_quantChecks_iff.1 hchecks
    exact (h.memWrite (b := .q) (by simpa [Buf.capacity] using hlen)).congr quantizeEffect_buf
  · obtain ⟨hwin, hlen⟩ := allHold_reduceChecks_iff.1 hchecks
    refine (h.memWrite ?_).congr reduceEffect_buf
    rw [reduce_memRead_length hwin]
    exact (ceildiv_le s.count hwin).trans hlen
  · obtain ⟨-, -, hlen⟩ := allHold_restoreDomain_iff.1 hchecks
    exact (h.memWrite (b := .rst) (by simpa [Buf.capacity] using hlen)).congr restoreEffect_buf
  · have hlen : s.count ≤ Config.nmax := allHold_packChecks_iff.1 hchecks
    exact (h.memWrite (b := .out) (by simpa [Buf.capacity] using hlen)).congr packEffect_buf

theorem step_buffersFit (h : s.BuffersFit) (hstep : step s = .next t) : t.BuffersFit := by
  have hmoved (rest : List HostMove) : (s.setHost rest).BuffersFit := h.congr (setHost_buf s rest)
  cases blockStep_of_step hstep with
  | turn hseq => exact seqTurn_buffersFit (hmoved _) hseq
  | hostOnly moves values => exact h.congr fun b => by cases b <;> rfl
  | reset hhost => exact resetBlock_buffersFit _
  | command hhost hcmd => exact (hmoved _).congr (writeCommand_buf hcmd)
  | storeReg hhost hr hbusy => exact (hmoved _).congr (storeReg_buf _ _ _)
  | writeElem hhost hbusy hi hout => exact (hmoved _).writeElem _ hi

end Buffers

section Errors

variable {s t : State}

theorem Check.error_ne (c : Check) : c.error ≠ .none ∧ c.error ≠ .packError := by cases c <;> decide

/-- SEQ's turn neither enters nor leaves FAILED and keeps ERR (R136). -/
theorem seqTurn_phase_err (h : seqTurn s = .next t) : t.err = s.err ∧ (t.phase = .failed ↔ s.phase = .failed) := by
  obtain ⟨-, rfl⟩ | ⟨hp, -, rfl⟩ | ⟨hp, -, rfl⟩ | ⟨hp, -, rfl⟩ | ⟨hp, -, rfl⟩ := seqTurn_cases h
  · exact ⟨rfl, Iff.rfl⟩
  · cases hc : s.chain <;> simp [hp, hc]
  · cases hc : s.chain <;> simp [hp, hc]
  · cases hc : s.chain <;> simp [hp, hc]
  · simp [hp]

/-- What a word written to CMD does to PHASE and ERR: FAILED and ERR are as before, or the word is CLR's, or the command
fails from IDLE or DONE with the error of a rule (R135, R138, R157, R158). -/
theorem writeCommand_phase_err {c : Word} (h : writeCommand c s = .next t) :
    (t.err = s.err ∧ (t.phase = .failed ↔ s.phase = .failed)) ∨
    (c = 6#32 ∧ t.phase = .idle ∧ t.err = .none) ∨
    ((s.phase = .idle ∨ s.phase = .done) ∧ t.phase = .failed ∧ t.err ≠ .none ∧ t.err ≠ .packError) := by
  obtain ⟨i, hdec, hexec⟩ | ⟨-, ⟨-, rfl⟩ | ⟨hrest, rfl⟩⟩ := writeCommand_cases h
  · obtain ⟨rfl, -, rfl⟩ | ⟨-, -, rfl⟩ | ⟨-, hrest, d, -, rfl⟩ | ⟨hrest, hstart⟩ := exec_cases hexec
    · exact .inr (.inl ⟨decode_eq_ok_iff.1 hdec, rfl, rfl⟩)
    · exact .inl ⟨rfl, Iff.rfl⟩
    · exact .inr (.inr ⟨hrest, rfl, d.error_ne⟩)
    · have hnot : s.phase ≠ .failed := by rintro hp; simp [hp] at hrest
      obtain ⟨-, -, rfl⟩ | ⟨-, -, rfl⟩ | ⟨-, -, rfl⟩ | ⟨-, -, rfl⟩ | ⟨-, -, rfl⟩ := hstart <;>
        exact .inl ⟨rfl, by simp [hnot]⟩
  · exact .inl ⟨rfl, Iff.rfl⟩
  · exact .inr (.inr ⟨hrest, rfl, by simp, by simp⟩)

/-- What a step does to PHASE and ERR: FAILED and ERR are as before, or HOST clears or resets the block, or a command
that HOST writes in IDLE or DONE fails with the error of a rule. -/
theorem step_phase_err (h : step s = .next t) :
    (t.err = s.err ∧ (t.phase = .failed ↔ s.phase = .failed)) ∨
    ((∃ rest, s.host = .access (.regWrite 0 6#32) :: rest ∨ s.host = .access .reset :: rest) ∧
      t.phase = .idle ∧ t.err = .none) ∨
    ((s.phase = .idle ∨ s.phase = .done) ∧ (∃ c rest, s.host = .access (.regWrite 0 c) :: rest) ∧
      t.phase = .failed ∧ t.err ≠ .none ∧ t.err ≠ .packError) := by
  cases blockStep_of_step h with
  | turn hseq => exact .inl (by simpa using seqTurn_phase_err hseq)
  | hostOnly moves values => exact .inl ⟨rfl, Iff.rfl⟩
  | reset hhost => exact .inr (.inl ⟨⟨_, .inr hhost⟩, rfl, rfl⟩)
  | command hhost hcmd =>
    obtain hkept | ⟨rfl, hclear⟩ | ⟨hrest, hfailed⟩ := writeCommand_phase_err hcmd
    · exact .inl hkept
    · exact .inr (.inl ⟨⟨_, .inl hhost⟩, hclear⟩)
    · exact .inr (.inr ⟨hrest, ⟨_, _, hhost⟩, hfailed⟩)
  | storeReg hhost hr hbusy => exact .inl (by simp)
  | writeElem hhost hbusy hi hout => exact .inl (by simp)

/-- The part of the invariant about ERR: it is NONE exactly outside FAILED, and never `PackError` (R25, R126). -/
theorem step_err_fits (hnone : s.err = .none ↔ s.phase ≠ .failed) (hpack : s.err ≠ .packError) (h : step s = .next t) :
    (t.err = .none ↔ t.phase ≠ .failed) ∧ t.err ≠ .packError := by
  obtain ⟨herr, hphase⟩ | ⟨-, hphase, herr⟩ | ⟨-, -, hphase, herr⟩ := step_phase_err h
  · exact ⟨by rw [herr, hnone, ne_eq, ne_eq, hphase], herr ▸ hpack⟩
  · simp [hphase, herr]
  · simp [hphase, herr]

end Errors

section Readiness

variable {s t : State}

/-- The checks read the operand registers only. -/
theorem Check.holds_congr (hops : SameOperands s t) (hrlen : t.rlen = s.rlen) (c : Check) : c.holds t = c.holds s := by
  have hr : t.reducedCount = s.reducedCount := congrArg BitVec.toNat hrlen
  cases c <;> simp only [Check.holds, hops.depth_eq, hops.windowSize_eq, hops.count_eq, hr]

theorem allHold_congr (hops : SameOperands s t) (hrlen : t.rlen = s.rlen) (cs : List Check) :
    allHold cs t = allHold cs s := by
  simp only [allHold, Check.holds_congr hops hrlen]

theorem stageReady_congr (hphase : t.phase = s.phase) (hchain : t.chain = s.chain) (hops : SameOperands s t)
    (hrlen : t.rlen = s.rlen) (h : s.stageReady) : t.stageReady := by
  simpa only [State.stageReady, hphase, hchain, allHold_congr hops hrlen] using h

/-- When not BUSY the only demand is that CHAIN is 0 (R32). -/
theorem stageReady_iff_of_not_busy (hbusy : s.busy = false) : s.stageReady ↔ s.chain = false := by
  unfold State.stageReady
  cases hp : s.phase <;> simp [State.busy, Phase.busy, hp] at hbusy ⊢

theorem stageReady_quantizing_iff (hp : s.phase = .quantizing) :
    s.stageReady ↔ allHold quantChecks s = true ∧ (s.chain = true → allHold runChecks s = true) := by
  simp [State.stageReady, hp]

theorem stageReady_reducing_iff (hp : s.phase = .reducing) :
    s.stageReady ↔ allHold reduceChecks s = true ∧ (s.chain = true → allHold runChecks s = true) := by
  simp [State.stageReady, hp]

theorem stageReady_restoring_iff (hp : s.phase = .restoring) : s.stageReady ↔ allHold restoreChecks s = true := by
  simp [State.stageReady, hp]

theorem stageReady_clamping_iff (hp : s.phase = .clamping) : s.stageReady ↔ allHold packChecks s = true := by
  simp [State.stageReady, hp]

/-- A command that has ended leaves CHAIN 0. -/
theorem stageReady_of_done (hphase : t.phase = .done) (hchain : t.chain = false) : t.stageReady :=
  (stageReady_iff_of_not_busy (by simp [State.busy, hphase, Phase.busy])).2 hchain

theorem allHold_runChecks_congr (hops : SameOperands s t) : allHold runChecks t = true ↔ allHold runChecks s = true := by
  rw [allHold_runChecks_iff, allHold_runChecks_iff, hops.depth_eq, hops.windowSize_eq, hops.count_eq]

/-- R137: inside a RUN the checks made when it was accepted cover REDUCING. -/
theorem quantizeEffect_stageReady (hp : s.phase = .quantizing) (h : s.stageReady) : (quantizeEffect s).stageReady := by
  obtain ⟨-, hrun⟩ := (stageReady_quantizing_iff hp).1 h
  cases hchain : s.chain with
  | false => exact stageReady_of_done (by simp [hchain]) (by simp [hchain])
  | true =>
    have hrun' := (allHold_runChecks_congr quantizeEffect_sameOperands).2 (hrun hchain)
    obtain ⟨-, hwin, hlen⟩ := allHold_runChecks_iff.1 hrun'
    exact (stageReady_reducing_iff (by simp [hchain])).2 ⟨allHold_reduceChecks_iff.2 ⟨hwin, hlen⟩, fun _ => hrun'⟩

/-- R114, R137: inside a RUN they cover RESTORING too, whose RLEN is what REDUCING wrote, at most LEN. -/
theorem reduceEffect_stageReady (hp : s.phase = .reducing) (h : s.stageReady) : (reduceEffect s).stageReady := by
  obtain ⟨hchecks, hrun⟩ := (stageReady_reducing_iff hp).1 h
  cases hchain : s.chain with
  | false => exact stageReady_of_done (by simp [hchain]) (by simp [hchain])
  | true =>
    obtain ⟨hwin, hlen⟩ := allHold_reduceChecks_iff.1 hchecks
    have hrlen : (reduceEffect s).reducedCount ≤ Config.nmax :=
      (reduceEffect_rlen_toNat hwin).le.trans ((ceildiv_le s.count hwin).trans hlen)
    obtain ⟨hbits', hwin', hlen'⟩ :=
      allHold_runChecks_iff.1 ((allHold_runChecks_congr reduceEffect_sameOperands).2 (hrun hchain))
    exact (stageReady_restoring_iff (by simp [hchain])).2 (allHold_restoreChecks_iff.2 ⟨hbits', hwin', hlen', hrlen⟩)

/-- CLAMPING needs no more than a legal LEN, which RESTORING had. -/
theorem restoreEffect_stageReady (hp : s.phase = .restoring) (h : s.stageReady) : (restoreEffect s).stageReady := by
  obtain ⟨-, -, hlen, -⟩ := allHold_restoreChecks_iff.1 ((stageReady_restoring_iff hp).1 h)
  cases hchain : s.chain with
  | false => exact stageReady_of_done (by simp [hchain]) (by simp [hchain])
  | true =>
    refine (stageReady_clamping_iff (by simp [hchain])).2 (allHold_packChecks_iff.2 ?_)
    rwa [restoreEffect_sameOperands.count_eq]

theorem seqTurn_stageReady (h : s.stageReady) (hseq : seqTurn s = .next t) : t.stageReady := by
  obtain ⟨-, rfl⟩ | ⟨hp, -, rfl⟩ | ⟨hp, -, rfl⟩ | ⟨hp, -, rfl⟩ | ⟨-, -, rfl⟩ := seqTurn_cases hseq
  · exact h
  · exact quantizeEffect_stageReady hp h
  · exact reduceEffect_stageReady hp h
  · exact restoreEffect_stageReady hp h
  · exact stageReady_of_done packEffect_phase packEffect_chain

/-- A command is accepted only when the operands of all its stages are legal (R135, R153). -/
theorem exec_stageReady {i : Instr} (h : s.stageReady) (hexec : exec i s = .next t) : t.stageReady := by
  obtain ⟨-, -, rfl⟩ | ⟨-, -, rfl⟩ | ⟨-, -, c, -, rfl⟩ | ⟨-, hstart⟩ := exec_cases hexec
  · exact clear_chain s
  · exact h
  · exact raise_chain s c.error
  · obtain ⟨-, hchecks, rfl⟩ | ⟨-, hchecks, rfl⟩ | ⟨-, hchecks, rfl⟩ | ⟨-, hchecks, rfl⟩ | ⟨-, hchecks, rfl⟩ := hstart
    · exact (stageReady_quantizing_iff rfl).2 ⟨hchecks, nofun⟩
    · exact (stageReady_reducing_iff rfl).2 ⟨hchecks, nofun⟩
    · exact (stageReady_restoring_iff rfl).2 hchecks
    · exact (stageReady_clamping_iff rfl).2 hchecks
    · obtain ⟨hbits, -, hlen⟩ := allHold_runChecks_iff.1 hchecks
      exact (stageReady_quantizing_iff rfl).2 ⟨allHold_quantChecks_iff.2 ⟨hbits, hlen⟩, fun _ => hchecks⟩

theorem writeCommand_stageReady {c : Word} (h : s.stageReady) (hcmd : writeCommand c s = .next t) : t.stageReady := by
  obtain ⟨i, -, hexec⟩ | ⟨-, ⟨-, rfl⟩ | ⟨-, rfl⟩⟩ := writeCommand_cases hcmd
  · exact exec_stageReady h hexec
  · exact h
  · exact raise_chain s .illegalCommand

theorem step_stageReady (h : s.stageReady) (hstep : step s = .next t) : t.stageReady := by
  have hmoved (rest : List HostMove) : (s.setHost rest).stageReady := h
  cases blockStep_of_step hstep with
  | turn hseq => exact seqTurn_stageReady (hmoved _) hseq
  | hostOnly moves values => exact h
  | reset hhost => exact resetBlock_chain _
  | command hhost hcmd => exact writeCommand_stageReady (hmoved _) hcmd
  | storeReg hhost hr hbusy =>
    rw [stageReady_iff_of_not_busy (by simpa using hbusy), storeReg_chain]
    exact (stageReady_iff_of_not_busy hbusy).1 h
  | writeElem hhost hbusy hi hout => exact stageReady_congr (by simp) (by simp) (by simp [SameOperands]) (by simp) h

end Readiness

section OutputLength

variable {s t : State}

/-- The part of the invariant about OLEN: it is 0 after reset and PACK writes `2 * LEN`, LEN being legal (R31). -/
theorem step_olen_even (heven : ∃ n, n ≤ Config.nmax ∧ s.olen.toNat = 2 * n) (hready : s.stageReady)
    (hstep : step s = .next t) : ∃ n, n ≤ Config.nmax ∧ t.olen.toNat = 2 * n := by
  obtain hkept | ⟨rest, hhost⟩ | ⟨hp, holen⟩ := step_olen hstep
  · rwa [hkept]
  · rw [step_of_access hhost] at hstep
    obtain rfl : (s.setHost rest).resetBlock = t := by simpa [hostAccess] using hstep
    exact ⟨0, Nat.zero_le _, rfl⟩
  · exact ⟨s.count, allHold_packChecks_iff.1 ((stageReady_clamping_iff hp).1 hready), holen⟩

end OutputLength

/-- Settles O58: at reset nothing is written, ERR is NONE in IDLE, CHAIN is 0 and OLEN is 0. -/
theorem resetMeetsTheInvariant : Obligations.ResetMeetsTheInvariant := by
  unfold Obligations.ResetMeetsTheInvariant
  have hbuf (b : Buf) : State.reset.buf b = [] := by cases b <;> rfl
  exact { wf := reset_wf
          within := fun b => by rw [hbuf b]; exact nofun
          err_none_iff := by decide
          err_reachable := by decide
          ready := rfl
          olen_even := ⟨0, Nat.zero_le _, rfl⟩ }

theorem State.Inv.step {s t : State} (h : s.Inv) (hstep : step s = .next t) : t.Inv := by
  have hbuf : t.BuffersFit := step_buffersFit (fun b => ⟨h.wf b, h.within b⟩) hstep
  obtain ⟨hnone, hpack⟩ := step_err_fits h.err_none_iff h.err_reachable hstep
  exact { wf := fun b => (hbuf b).1
          within := fun b => (hbuf b).2
          err_none_iff := hnone
          err_reachable := hpack
          ready := step_stageReady h.ready hstep
          olen_even := step_olen_even h.olen_even h.ready hstep }

/-- Settles O59: each field of the invariant has its own lemma about a step. -/
theorem everyStepKeepsTheInvariant : Obligations.EveryStepKeepsTheInvariant := by
  unfold Obligations.EveryStepKeepsTheInvariant
  exact fun s t h hstep => h.step hstep

end Sys2Proof.Machine

/-! SUPPORT. When a HOST access has a meaning, what HOST reads, and obligations O1, O2, O4, O5, O7, O8, O10, O13 and O14
(30_encoding.md section 3, 44_sequencer.md section 3, 70_reset_and_hazards.md section 1). -/

namespace Sys2Proof.Machine

/-- Settles O1: the six words are those the encoder gives, and the five others miss the table by field ZERO or by OPC. -/
theorem decodesTheTablesWords : Obligations.DecodesTheTablesWords := by
  unfold Obligations.DecodesTheTablesWords
  exact ⟨decode_encode .quant, decode_encode .reduce, decode_encode .restore, decode_encode .pack, decode_encode .run,
    decode_encode .clr, rfl, rfl, rfl, rfl, rfl⟩

/-- Settles O2: the opcodes of the decoder and of the encoder are the same table. -/
theorem decodeOfEncode : Obligations.DecodeOfEncode := by
  unfold Obligations.DecodeOfEncode
  exact decode_encode

/-- Settles O4: a write to CMD is `writeCommand`, which runs the command the word decodes to. -/
theorem stepRunsTheDecodedCommand : Obligations.StepRunsTheDecodedCommand := by
  unfold Obligations.StepRunsTheDecodedCommand
  intro s c i rest hhost hdec
  exact (step_of_cmdWrite hhost).trans (writeCommand_of_ok hdec)

section SeqSteps

variable {s : State} {rest : List HostMove}

theorem step_of_no_move (h : s.host = []) : step s = seqTurn s := by simp only [step, h]

theorem step_of_pause (h : s.host = .pause :: rest) : step s = seqTurn (s.setHost rest) := by simp only [step, h]

theorem step_of_wait (h : s.host = .wait :: rest) : step s = .next (pollStatus (s.setHost rest)) := by
  simp only [step, h]

end SeqSteps

/-- Settles O5: a step with no access and no poll is SEQ's turn. -/
theorem stepIsSeqsTurnWhenHostPauses : Obligations.StepIsSeqsTurnWhenHostPauses := by
  unfold Obligations.StepIsSeqsTurnWhenHostPauses
  exact fun s => ⟨step_of_no_move, fun rest => step_of_pause⟩

section CommandAnswers

variable {s : State}

theorem phase_of_not_busy (hb : s.busy = false) : (s.phase = .idle ∨ s.phase = .done) ∨ s.phase = .failed := by
  cases hp : s.phase <;> simp [State.busy, Phase.busy, hp] at hb ⊢

theorem onCommand_answers (hb : s.busy = false) (f g : State → State) : ∃ t, onCommand f g s = .next t := by
  obtain hrest | hfailed := phase_of_not_busy hb
  · exact ⟨g s, onCommand_atRest hrest⟩
  · exact ⟨f s, onCommand_failed hfailed⟩

/-- R135: every command has a meaning when not BUSY. -/
theorem exec_answers (hb : s.busy = false) (i : Instr) : ∃ t, exec i s = .next t := by
  cases i <;> exact onCommand_answers hb ..

/-- R135: so has every word written to CMD. -/
theorem writeCommand_answers (hb : s.busy = false) (c : Word) : ∃ t, writeCommand c s = .next t := by
  cases h : decode c with
  | ok i => rw [writeCommand_of_ok h]; exact exec_answers hb i
  | error e => rw [writeCommand_of_error h]; exact onCommand_answers hb ..

end CommandAnswers

section HostReads

variable {s : State} {r : Reg} {b : Buf} {i : Nat} {rest : List HostMove}

/-- CMD and STATUS, at indices 0 and 1, can be read in every phase (R141). -/
theorem readableWhileBusy_iff : r.readableWhileBusy = true ↔ r.index ≤ 1 := by cases r <;> decide

theorem Reg.index_le (r : Reg) : r.index ≤ 6 := by cases r <;> decide

theorem Reg.ofIndex_index (r : Reg) : Reg.ofIndex r.index = some r := by cases r <;> rfl

/-- Register indices 7 and above are reserved (R36). -/
theorem Reg.ofIndex_eq_none (h : ¬i ≤ 6) : Reg.ofIndex i = none := by
  cases hr : Reg.ofIndex i with
  | none => rfl
  | some r => exact absurd (Reg.index_of_ofIndex hr ▸ r.index_le) h

/-- R141: a register that can be read in this phase is received by HOST. -/
theorem regRead_of_readable (h : s.busy = true → r.readableWhileBusy = true) :
    regRead r.index s = .next (s.receive (.reg r (s.regValue r))) := by
  simp only [regRead, Reg.ofIndex_index]
  split_ifs with hr
  · rfl
  · exact whenNotBusy_of_not_busy (Bool.eq_false_iff.2 (mt h hr)) _

/-- R146: the other registers have no meaning to read while BUSY. -/
theorem regRead_busy (hb : s.busy = true) (hr : ¬r.readableWhileBusy = true) :
    regRead r.index s = .refused .accessWhileBusy := by
  simp only [regRead, Reg.ofIndex_index, if_neg hr, whenNotBusy_of_busy hb]

/-- R143: a read of an element that exists has a meaning when not BUSY. -/
theorem bufRead_of_lt (hi : i < b.capacity) :
    bufRead b i s = whenNotBusy s (.next (s.receive (.elem b (s.readElem b i)))) := if_pos (decide_eq_true hi)

theorem step_of_regRead (hr : s.busy = true → r.readableWhileBusy = true)
    (hhost : s.host = .access (.regRead r.index) :: rest) :
    step s = .next { s with host := rest, received := .reg r (s.regValue r) :: s.received } := by
  rw [step_of_access hhost, hostAccess, regRead_of_readable (s := s.setHost rest) hr, setHost_regValue]
  rfl

theorem step_of_regRead_busy (hb : s.busy = true) (hr : ¬r.readableWhileBusy = true)
    (hhost : s.host = .access (.regRead r.index) :: rest) : step s = .refused .accessWhileBusy := by
  rw [step_of_access hhost, hostAccess, regRead_busy (s := s.setHost rest) hb hr]

/-- What a read of BITS, WINDOW, LEN, RLEN or OLEN answers: the stored value, or a refusal while BUSY (R141, R146). -/
theorem step_of_storedRegRead (hr : ¬r.readableWhileBusy = true)
    (hhost : s.host = .access (.regRead r.index) :: rest) :
    (s.busy = false → step s =
      .next { s with host := rest, received := .reg r (s.regValue r) :: s.received }) ∧
    (s.busy = true → step s = .refused .accessWhileBusy) :=
  ⟨fun hb => step_of_regRead (fun hb' => absurd hb' (Bool.eq_false_iff.1 hb)) hhost,
    fun hb => step_of_regRead_busy hb hr hhost⟩

end HostReads

/-- Settles O8: CMD and STATUS are readable in every phase, the others when not BUSY. -/
theorem regReadReturnsTheRegister : Obligations.RegReadReturnsTheRegister := by
  unfold Obligations.RegReadReturnsTheRegister
  intro s rest
  simp only [List.forall_mem_cons]
  exact ⟨⟨step_of_regRead (r := .cmd) fun _ => rfl, step_of_regRead (r := .status) fun _ => rfl, nofun⟩,
    step_of_storedRegRead (r := .bits) nofun, step_of_storedRegRead (r := .window) nofun,
    step_of_storedRegRead (r := .len) nofun, step_of_storedRegRead (r := .rlen) nofun,
    step_of_storedRegRead (r := .olen) nofun, nofun⟩

/-- Settles O10: a read of an element that exists is received when not BUSY. -/
theorem bufReadReturnsTheElement : Obligations.BufReadReturnsTheElement := by
  unfold Obligations.BufReadReturnsTheElement
  intro s b i rest hi hhost
  rw [step_of_access hhost, hostAccess, bufRead_of_lt hi, setHost_readElem]
  exact ⟨fun hb => whenNotBusy_of_not_busy hb _, fun hb => whenNotBusy_of_busy hb _⟩

section Meaning

variable {s : State} {a : HostAction}

theorem busy_of_not_and {p : Prop} (h : ¬(p ∧ s.busy = false)) (hp : p) : s.busy = true :=
  Bool.of_not_eq_false fun hb => h ⟨hp, hb⟩

/-- R146: an access to which the table gives a meaning answers a next state. -/
theorem hostAccess_of_hasMeaning (h : a.hasMeaning s) : ∃ t, hostAccess a s = .next t := by
  cases a with
  | regRead i =>
    obtain ⟨hi, hbusy⟩ := h
    obtain ⟨r, rfl⟩ := exists_reg_index_eq hi
    exact ⟨_, regRead_of_readable fun hb => readableWhileBusy_iff.2 (hbusy hb)⟩
  | regWrite i v =>
    obtain ⟨hi, hb⟩ := h
    obtain ⟨r, rfl⟩ := exists_reg_index_eq hi
    by_cases hr : r = .cmd
    · subst hr
      exact writeCommand_answers hb v
    · exact ⟨_, (regWrite_of_ne_cmd hr v).trans (whenNotBusy_of_not_busy hb _)⟩
  | bufRead b i =>
    obtain ⟨hi, hb⟩ := h
    exact ⟨_, (bufRead_of_lt hi).trans (whenNotBusy_of_not_busy hb _)⟩
  | bufWrite b i v =>
    obtain ⟨hi, hb⟩ := h
    exact ⟨_, (bufWrite_of_lt hi v).trans (whenNotBusy_of_not_busy hb _)⟩
  | reset => exact ⟨_, rfl⟩

/-- R146: every other access is refused, for its index or because the block is BUSY. -/
theorem hostAccess_of_not_hasMeaning (h : ¬a.hasMeaning s) : ∃ r, hostAccess a s = .refused r := by
  cases a with
  | regRead i =>
    by_cases hi : i ≤ 6
    · obtain ⟨hb, hlt⟩ : s.busy = true ∧ ¬i ≤ 1 := Classical.not_imp.1 fun hbusy => h ⟨hi, hbusy⟩
      obtain ⟨r, rfl⟩ := exists_reg_index_eq hi
      exact ⟨_, regRead_busy hb (mt readableWhileBusy_iff.1 hlt)⟩
    · exact ⟨.reservedRegister, by simp only [hostAccess, regRead, Reg.ofIndex_eq_none hi]⟩
  | regWrite i v =>
    by_cases hi : i ≤ 6
    · have hb := busy_of_not_and h hi
      obtain ⟨r, rfl⟩ := exists_reg_index_eq hi
      exact ⟨_, regWrite_busy hb r v⟩
    · exact ⟨.reservedRegister, by simp only [hostAccess, regWrite, Reg.ofIndex_eq_none hi]⟩
  | bufRead b i =>
    by_cases hi : i < b.capacity
    · have hb := busy_of_not_and h hi
      exact ⟨_, (bufRead_of_lt hi).trans (whenNotBusy_of_busy hb _)⟩
    · exact ⟨.illegalIndex, if_neg (by simpa [legalElemIndex] using hi)⟩
  | bufWrite b i v =>
    by_cases hi : i < b.capacity
    · have hb := busy_of_not_and h hi
      exact ⟨_, (bufWrite_of_lt hi v).trans (whenNotBusy_of_busy hb _)⟩
    · exact ⟨.illegalIndex, if_neg (by simpa [legalElemIndex] using hi)⟩
  | reset => exact absurd trivial h

/-- The table reads BUSY only, which HOST's moves do not touch. -/
theorem hasMeaning_setHost (rest : List HostMove) : a.hasMeaning (s.setHost rest) ↔ a.hasMeaning s := by
  cases a <;> exact Iff.rfl

end Meaning

/-- Settles O7: a step at an access is that access, which has a step exactly where the table gives it a meaning. -/
theorem accessHasAStepExactlyWhereItHasAMeaning : Obligations.AccessHasAStepExactlyWhereItHasAMeaning := by
  unfold Obligations.AccessHasAStepExactlyWhereItHasAMeaning
  intro s a rest hhost
  rw [step_of_access hhost, ← hasMeaning_setHost rest]
  exact ⟨hostAccess_of_hasMeaning, hostAccess_of_not_hasMeaning⟩

/-- Nothing is written after reset, so every element reads as the new draw (R42). -/
theorem resetBlock_readElem (s : State) (b : Buf) (i : Nat) :
    s.resetBlock.readElem b i = Config.unwritten (s.draw + 1) b.width b.number i := by
  rw [State.readElem, resetBlock_buf]
  rfl

/-- Settles O13: Reset is `resetBlock`, which keeps HOST's own fields. -/
theorem resetWorksInEveryPhase : Obligations.ResetWorksInEveryPhase := by
  unfold Obligations.ResetWorksInEveryPhase
  intro s rest hhost
  exact ⟨(s.setHost rest).resetBlock, step_of_access hhost, rfl, rfl, rfl, rfl, rfl, rfl, rfl, rfl, rfl, rfl, rfl,
    resetBlock_readElem _⟩

/-- Settles O14: the values stand in `State.reset`. -/
theorem resetStateHoldsTheResetValues : Obligations.ResetStateHoldsTheResetValues := by
  unfold Obligations.ResetStateHoldsTheResetValues
  exact ⟨rfl, rfl, rfl, rfl, rfl, rfl, rfl, rfl, rfl⟩

end Sys2Proof.Machine

/-! SUPPORT. STATUS as a view, FAILED and its causes, and obligations O12, O36, O48, O49 and O50 (10_state.md section 2,
60_exceptions.md). -/

namespace Sys2Proof.Machine

section StatusView

variable {s : State}

theorem Phase.code_le (p : Phase) : p.code ≤ 6 := by cases p <;> decide

/-- R22: STATUS as a number; the fields do not overlap. -/
theorem status_toNat (s : State) : s.status.toNat =
    s.phase.code + 8 * s.busy.toNat + 16 * s.isDone.toNat + 32 * s.isFailed.toNat + 256 * s.err.code := by
  have hphase := s.phase.code_le
  have herr := s.err.code_le
  have hbusy := s.busy.toNat_le
  have hdone := s.isDone.toNat_le
  have hfailed := s.isFailed.toNat_le
  rw [State.status, BitVec.toNat_ofNat, Nat.mod_eq_of_lt (by omega)]

/-- Bits `k + n - 1` to `k` of STATUS as a number. -/
theorem status_field {k n v : Nat} (h : s.status.toNat / 2 ^ k % 2 ^ n = v) :
    s.status.extractLsb' k n = BitVec.ofNat n v := by
  apply BitVec.eq_of_toNat_eq
  rw [BitVec.extractLsb'_toNat, BitVec.toNat_ofNat, Nat.shiftRight_eq_div_pow, ← h, Nat.mod_mod]

theorem status_bit {k : Nat} {b : Bool} (h : s.status.toNat / 2 ^ k % 2 = b.toNat) : s.status.getLsbD k = b := by
  rw [BitVec.getLsbD, Nat.testBit_eq_decide_div_mod_eq, h]
  cases b <;> rfl

/-- R22: the fields of STATUS, from bit 0 up. -/
theorem status_fields (s : State) :
    s.status.extractLsb' 0 3 = BitVec.ofNat 3 s.phase.code ∧ s.status.getLsbD 3 = s.busy ∧
    s.status.getLsbD 4 = s.isDone ∧ s.status.getLsbD 5 = s.isFailed ∧ s.status.extractLsb' 6 2 = 0#2 ∧
    s.status.extractLsb' 8 4 = BitVec.ofNat 4 s.err.code ∧ s.status.extractLsb' 12 20 = 0#20 := by
  have hphase := s.phase.code_le
  have herr := s.err.code_le
  have hbusy := s.busy.toNat_le
  have hdone := s.isDone.toNat_le
  have hfailed := s.isFailed.toNat_le
  refine ⟨status_field ?_, status_bit ?_, status_bit ?_, status_bit ?_, status_field ?_, status_field ?_,
    status_field ?_⟩ <;> rw [status_toNat] <;> omega

/-- BUSY is set exactly in the four stages (R22). -/
theorem busy_iff : s.busy = true ↔
    s.phase = .quantizing ∨ s.phase = .reducing ∨ s.phase = .restoring ∨ s.phase = .clamping := by
  cases hp : s.phase <;> simp [State.busy, Phase.busy, hp]

/-- R22: with ERR non-zero exactly in FAILED and never 6, STATUS reads as one of eleven values. -/
theorem status_mem_of_inv (h : s.Inv) : s.status ∈ [0x00000000#32, 0x00000009#32, 0x0000000A#32, 0x0000000B#32,
    0x0000000C#32, 0x00000015#32, 0x00000126#32, 0x00000226#32, 0x00000326#32, 0x00000426#32, 0x00000526#32] := by
  have hview : s.status = ({ State.reset with phase := s.phase, err := s.err } : State).status := status_congr rfl rfl
  have hnone := h.err_none_iff
  have hpack := h.err_reachable
  rw [hview]
  generalize s.phase = p, s.err = e at hnone hpack
  by_cases hp : p = .failed
  · subst hp
    cases e with
    | none => exact absurd rfl (hnone.1 rfl)
    | packError => exact absurd rfl hpack
    | illegalCommand | badBits | badWindow | badLength | badReducedLength => decide
  · obtain rfl := hnone.2 hp
    cases p with
    | failed => exact absurd rfl hp
    | idle | quantizing | reducing | restoring | clamping | done => decide

end StatusView

/-- Settles O12: the fields are those of `status_fields`, BUSY, DONE and FAILED being functions of PHASE. -/
theorem statusIsAViewOfPhaseAndErr : Obligations.StatusIsAViewOfPhaseAndErr := by
  unfold Obligations.StatusIsAViewOfPhaseAndErr
  intro s
  obtain ⟨hphase, hbusy, hdone, hfailed, hlow, herr, hhigh⟩ := status_fields s
  exact ⟨hphase, by rw [hbusy, busy_iff], by rw [hdone, State.isDone, decide_eq_true_iff],
    by rw [hfailed, State.isFailed, decide_eq_true_iff], hlow, herr, hhigh, status_mem_of_inv⟩

/-- Settles O36: the clip establishes the encoder's precondition, and a step keeps ERR, clears it, or sets it to the error
of a rule that a command breaks. -/
theorem packErrorIsNeverRaised : Obligations.PackErrorIsNeverRaised := by
  unfold Obligations.PackErrorIsNeverRaised
  refine ⟨fun t e => by rw [encodeSamples_map_clamp16]; exact nofun, fun s t hstep hpack => ?_⟩
  obtain ⟨herr, -⟩ | ⟨-, -, herr⟩ | ⟨-, -, -, -, herr⟩ := step_phase_err hstep
  · rwa [herr]
  · simp [herr]
  · exact herr

/-- Settles O49: in FAILED no command fails, so ERR is kept or cleared. -/
theorem failedIsLeftOnlyByClrOrReset : Obligations.FailedIsLeftOnlyByClrOrReset := by
  unfold Obligations.FailedIsLeftOnlyByClrOrReset
  intro s t hstep hfailed
  obtain ⟨herr, hphase⟩ | hcleared | ⟨hrest, -⟩ := step_phase_err hstep
  · exact .inl ⟨hphase.2 hfailed, herr⟩
  · exact .inr hcleared
  · simp [hfailed] at hrest

/-- Settles O50: of the cases of `step_phase_err` only the failure of a command enters FAILED. -/
theorem failedIsEnteredOnlyAtACommandWrite : Obligations.FailedIsEnteredOnlyAtACommandWrite := by
  unfold Obligations.FailedIsEnteredOnlyAtACommandWrite
  intro s t hstep hs ht
  obtain ⟨-, hphase⟩ | ⟨-, hidle, -⟩ | ⟨hrest, hhost, -⟩ := step_phase_err hstep
  · exact absurd (hphase.1 ht) hs
  · simp [hidle] at ht
  · exact ⟨hrest, hhost⟩

section Failed

variable {s : State}

theorem not_busy_of_failed (h : s.phase = .failed) : s.busy = false := by simp [State.busy, Phase.busy, h]

/-- SEQ has no step when not BUSY (R23, R164). -/
theorem seqTurn_of_not_busy (hb : s.busy = false) : seqTurn s = .next s := by
  obtain (hp | hp) | hp := phase_of_not_busy hb <;> simp only [seqTurn, hp]

/-- R157: every command but CLR is ignored in FAILED. -/
theorem exec_failed {i : Instr} (hi : i ≠ .clr) (h : s.phase = .failed) : exec i s = .next s := by
  cases i with
  | clr => exact absurd rfl hi
  | quant | reduce | restore | pack | run => exact onCommand_failed h

/-- R157: so is every word but CLR's. -/
theorem writeCommand_failed {c : Word} (hc : c ≠ 6#32) (h : s.phase = .failed) : writeCommand c s = .next s := by
  cases hdec : decode c with
  | ok i =>
    have hi : i ≠ .clr := by rintro rfl; exact hc (decode_eq_ok_iff.1 hdec)
    rw [writeCommand_of_ok hdec, exec_failed hi h]
  | error e => rw [writeCommand_of_error hdec, issueIllegal_failed h]

/-- When not BUSY every access whose index exists has a meaning (R146). -/
theorem hasMeaning_of_wellFormed {a : HostAction} (hb : s.busy = false) (h : a.wellFormed = true) : a.hasMeaning s := by
  cases a with
  | regRead i => exact ⟨of_decide_eq_true h, fun hb' => absurd hb' (Bool.eq_false_iff.1 hb)⟩
  | regWrite i v => exact ⟨of_decide_eq_true h, hb⟩
  | bufRead b i => exact ⟨of_decide_eq_true h, hb⟩
  | bufWrite b i v => exact ⟨of_decide_eq_true h, hb⟩
  | reset => trivial

end Failed

/-- Settles O48: FAILED is not BUSY, so the port has its meanings, and the words but CLR's are ignored. -/
theorem failedIgnoresEveryWordButClr : Obligations.FailedIgnoresEveryWordButClr := by
  unfold Obligations.FailedIgnoresEveryWordButClr
  intro s hfailed
  have hb := not_busy_of_failed hfailed
  refine ⟨fun c rest hhost hc => ?word, seqTurn_of_not_busy hb, fun a rest hwf hhost => ?access⟩
  case word =>
    exact (step_of_cmdWrite hhost).trans (writeCommand_failed hc hfailed)
  case access =>
    rw [step_of_access hhost]
    exact hostAccess_of_hasMeaning (hasMeaning_of_wellFormed hb hwf)

end Sys2Proof.Machine

/-! SUPPORT. Who writes the buffers and the operand registers, and obligations O53 and O54 (10_state.md sections 2 and 5). -/

namespace Sys2Proof.Machine

section Writers

variable {s t : State} {b c : Buf} {n i : Nat}

/-- An element that reads differently lies in the range that was written. -/
theorem SameElementsBut.mem_range_of_ne (h : SameElementsBut b n s t) (hne : t.readElem c i ≠ s.readElem c i) :
    c = b ∧ i < n := by
  by_contra hout
  exact hne (h c i fun hc => Nat.le_of_not_lt fun hi => hout ⟨hc, hi⟩)

/-- R30, R92, R104, R114, R124: which stage changes an element, and where. -/
theorem seqTurn_writers (h : seqTurn s = .next t) (hne : t.readElem b i ≠ s.readElem b i) :
    (b = .q ∧ s.phase = .quantizing ∧ i < s.count) ∨
    (b = .red ∧ s.phase = .reducing ∧ i < ceildiv s.count s.windowSize) ∨
    (b = .rst ∧ s.phase = .restoring ∧ i < s.count) ∨
    (b = .out ∧ s.phase = .clamping ∧ i < 2 * s.count) := by
  obtain ⟨-, rfl⟩ | ⟨hp, -, rfl⟩ | ⟨hp, hchecks, rfl⟩ | ⟨hp, -, rfl⟩ | ⟨hp, -, rfl⟩ := seqTurn_cases h
  · exact absurd rfl hne
  · obtain ⟨hb, hi⟩ := quantizeEffect_sameElementsBut.mem_range_of_ne hne
    exact .inl ⟨hb, hp, hi⟩
  · obtain ⟨hwin, -⟩ := allHold_reduceChecks_iff.1 hchecks
    obtain ⟨hb, hi⟩ := (reduceEffect_sameElementsBut hwin).mem_range_of_ne hne
    exact .inr (.inl ⟨hb, hp, hi⟩)
  · obtain ⟨hb, hi⟩ := restoreEffect_sameElementsBut.mem_range_of_ne hne
    exact .inr (.inr (.inl ⟨hb, hp, hi⟩))
  · obtain ⟨hb, hi⟩ := packEffect_sameElementsBut.mem_range_of_ne hne
    exact .inr (.inr (.inr ⟨hb, hp, hi⟩))

theorem seqTurn_sameOperands (h : seqTurn s = .next t) : SameOperands s t := by
  obtain ⟨-, rfl⟩ | ⟨-, -, rfl⟩ | ⟨-, -, rfl⟩ | ⟨-, -, rfl⟩ | ⟨-, -, rfl⟩ := seqTurn_cases h
  · exact ⟨rfl, rfl, rfl⟩
  · exact quantizeEffect_sameOperands
  · exact reduceEffect_sameOperands
  · exact restoreEffect_sameOperands
  · exact packEffect_sameOperands

/-- R29, R104: REDUCING is the one stage that writes RLEN. -/
theorem seqTurn_rlen (h : seqTurn s = .next t) :
    t.rlen = s.rlen ∨ (s.phase = .reducing ∧ t.rlen.toNat = ceildiv s.count s.windowSize) := by
  obtain ⟨-, rfl⟩ | ⟨-, -, rfl⟩ | ⟨hp, hchecks, rfl⟩ | ⟨-, -, rfl⟩ | ⟨-, -, rfl⟩ := seqTurn_cases h
  · exact .inl rfl
  · exact .inl quantizeEffect_rlen
  · exact .inr ⟨hp, reduceEffect_rlen_toNat (allHold_reduceChecks_iff.1 hchecks).1⟩
  · exact .inl restoreEffect_rlen
  · exact .inl packEffect_rlen

/-- R135, R155: a word written to CMD changes no element, operand register, RLEN, OLEN or field of HOST's. -/
theorem writeCommand_frame {w : Word} (h : writeCommand w s = .next t) :
    SameElements s t ∧ SameOperands s t ∧ t.rlen = s.rlen ∧ t.olen = s.olen ∧ SameOutside s t := by
  have hbuf := writeCommand_buf h
  have hdraw : t.draw = s.draw := by rw [writeCommand_writes h]
  refine ⟨fun b i => readElem_congr (hbuf b) hdraw i, ?_⟩
  rw [writeCommand_writes h]
  exact ⟨⟨rfl, rfl, rfl⟩, rfl, rfl, rfl, rfl, rfl⟩

/-- R142: a register write changes no element. -/
theorem storeReg_readElem (s : State) (r : Reg) (v : Word) (b : Buf) (i : Nat) :
    (s.storeReg r v).readElem b i = s.readElem b i := readElem_congr (storeReg_buf s r v b) (storeReg_draw s r v) i

/-- R142: a register other than the one written keeps its value, and BITS, WINDOW, LEN and RLEN store the word. -/
theorem storeReg_changes (s : State) (r : Reg) (v : Word) :
    ((s.storeReg r v).bits ≠ s.bits → r = .bits ∧ (s.storeReg r v).bits = v) ∧
    ((s.storeReg r v).window ≠ s.window → r = .window ∧ (s.storeReg r v).window = v) ∧
    ((s.storeReg r v).len ≠ s.len → r = .len ∧ (s.storeReg r v).len = v) ∧
    ((s.storeReg r v).rlen ≠ s.rlen → r = .rlen ∧ (s.storeReg r v).rlen = v) := by
  cases r <;> simp [State.storeReg]

/-- What a step that is no Reset does to BITS, WINDOW, LEN and RLEN: REDUCING can write RLEN, or HOST writes a register. -/
theorem step_operands (hstep : step s = .next t) (hreset : ∀ rest, s.host ≠ .access .reset :: rest) :
    (SameOperands s t ∧
      (t.rlen = s.rlen ∨ (s.phase = .reducing ∧ t.rlen.toNat = ceildiv s.count s.windowSize))) ∨
    ∃ r v rest, s.host = .access (.regWrite r.index v) :: rest ∧ t = (s.setHost rest).storeReg r v := by
  cases blockStep_of_step hstep with
  | @turn rest _ hseq =>
    exact .inl ⟨seqTurn_sameOperands (s := s.setHost rest) hseq, seqTurn_rlen (s := s.setHost rest) hseq⟩
  | hostOnly moves values => exact .inl ⟨⟨rfl, rfl, rfl⟩, .inl rfl⟩
  | reset hhost => exact absurd hhost (hreset _)
  | command hhost hcmd =>
    obtain ⟨-, hops, hrlen, -⟩ := writeCommand_frame hcmd
    exact .inl ⟨hops, .inl hrlen⟩
  | storeReg hhost hr hbusy => exact .inr ⟨_, _, _, hhost, rfl⟩
  | writeElem hhost hbusy hi hout => exact .inl (by simp [SameOperands])

end Writers

/-- Settles O53: of the kinds of `BlockStep`, SEQ's turn, Reset and a write of the element change how an element reads. -/
theorem eachBufferHasItsWriters : Obligations.EachBufferHasItsWriters := by
  unfold Obligations.EachBufferHasItsWriters
  intro s t b i hstep hne
  cases blockStep_of_step hstep with
  | turn hseq =>
    exact .inr (.inr (by simpa using seqTurn_writers hseq (by simpa using hne)))
  | hostOnly moves values =>
    exact absurd (readElem_congr (by cases b <;> rfl) rfl i) hne
  | reset hhost => exact .inl ⟨_, hhost⟩
  | command hhost hcmd =>
    have hsame := (writeCommand_frame hcmd).1 b i
    exact absurd (hsame.trans (setHost_readElem ..)) hne
  | storeReg hhost hr hbusy => exact absurd ((storeReg_readElem ..).trans (setHost_readElem ..)) hne
  | @writeElem c j v rest hhost hbusy hj hout =>
    by_cases hsame : b = c ∧ i = j
    · obtain ⟨rfl, rfl⟩ := hsame
      exact .inr (.inl ⟨hout, v, rest, hhost, readElem_writeElem_same ..⟩)
    · exact absurd ((readElem_writeElem_other _ v hsame).trans (setHost_readElem ..)) hne

/-- Settles O54: by `step_operands`, and a register write changes the register it names. -/
theorem operandRegistersHaveTheirWriters : Obligations.OperandRegistersHaveTheirWriters := by
  unfold Obligations.OperandRegistersHaveTheirWriters
  intro s t hstep hreset
  obtain ⟨⟨hbits, hwindow, hlen⟩, hrlen⟩ | ⟨r, v, rest, hhost, rfl⟩ := step_operands hstep hreset
  · exact ⟨absurd hbits, absurd hwindow, absurd hlen, fun hne => .inr (hrlen.resolve_left hne)⟩
  · obtain ⟨hbits, hwindow, hlen, hrlen⟩ := storeReg_changes (s.setHost rest) r v
    refine ⟨fun hne => ?_, fun hne => ?_, fun hne => ?_, fun hne => .inl ?_⟩
    · obtain ⟨rfl, hv⟩ := hbits hne
      exact ⟨rest, hv ▸ hhost⟩
    · obtain ⟨rfl, hv⟩ := hwindow hne
      exact ⟨rest, hv ▸ hhost⟩
    · obtain ⟨rfl, hv⟩ := hlen hne
      exact ⟨rest, hv ▸ hhost⟩
    · obtain ⟨rfl, hv⟩ := hrlen hne
      exact ⟨rest, hv ▸ hhost⟩

end Sys2Proof.Machine

/-! SUPPORT. How SEQ's turns go on to the end of a command, and obligations O47, O51, O56 and O57 (44_sequencer.md section 1,
70_reset_and_hazards.md section 4). -/

namespace Sys2Proof.Machine

section Progress

variable {s t : State}

/-- R136: with the operands of its stage legal SEQ's turn answers a next state, and PHASE and CHAIN advance as the table
says. -/
theorem seqTurn_of_stageReady (h : s.stageReady) : ∃ t, seqTurn s = .next t ∧
    (s.busy = false → t = s) ∧
    (s.phase = .quantizing → t.phase = (if s.chain then .reducing else .done) ∧ t.chain = s.chain) ∧
    (s.phase = .reducing → t.phase = (if s.chain then .restoring else .done) ∧ t.chain = s.chain) ∧
    (s.phase = .restoring → t.phase = (if s.chain then .clamping else .done) ∧ t.chain = s.chain) ∧
    (s.phase = .clamping → t.phase = .done ∧ t.chain = false) := by
  cases hp : s.phase with
  | idle | done | failed =>
    exact ⟨s, seqTurn_of_not_busy (by simp [State.busy, Phase.busy, hp]), fun _ => rfl, nofun, nofun, nofun, nofun⟩
  | quantizing =>
    obtain ⟨hbits, hlen⟩ := allHold_quantChecks_iff.1 ((stageReady_quantizing_iff hp).1 h).1
    exact ⟨quantizeEffect s, seqTurn_quantizing hp hbits hlen, by simp [State.busy, Phase.busy, hp],
      by simp [Bool.cond_eq_ite], nofun, nofun, nofun⟩
  | reducing =>
    obtain ⟨hwin, hlen⟩ := allHold_reduceChecks_iff.1 ((stageReady_reducing_iff hp).1 h).1
    exact ⟨reduceEffect s, seqTurn_reducing hp hwin hlen, by simp [State.busy, Phase.busy, hp], nofun,
      by simp [Bool.cond_eq_ite], nofun, nofun⟩
  | restoring =>
    obtain ⟨hbits, hwin, hlen, -⟩ := allHold_restoreChecks_iff.1 ((stageReady_restoring_iff hp).1 h)
    exact ⟨restoreEffect s, seqTurn_restoring hp hbits hwin hlen, by simp [State.busy, Phase.busy, hp], nofun, nofun,
      by simp [Bool.cond_eq_ite], nofun⟩
  | clamping =>
    have hlen := allHold_packChecks_iff.1 ((stageReady_clamping_iff hp).1 h)
    exact ⟨packEffect s, seqTurn_clamping hp hlen, by simp [State.busy, Phase.busy, hp], nofun, nofun, nofun,
      fun _ => ⟨packEffect_phase, packEffect_chain⟩⟩

/-- The stages of a RUN from this one on; none at rest. -/
def Phase.stagesLeft : Phase → Nat
  | .idle | .done | .failed => 0
  | .quantizing => 4
  | .reducing => 3
  | .restoring => 2
  | .clamping => 1

theorem Phase.stagesLeft_le (p : Phase) : p.stagesLeft ≤ 4 := by cases p <;> decide

/-- A turn of SEQ in a stage ends the command or goes on to a later stage. -/
theorem seqTurn_progress (h : s.stageReady) (hb : s.busy = true) : ∃ t, seqTurn s = .next t ∧
    (t.phase = .done ∨ t.busy = true) ∧ t.phase.stagesLeft < s.phase.stagesLeft := by
  obtain ⟨t, hseq, -, hquant, hreduce, hrestore, hpack⟩ := seqTurn_of_stageReady h
  refine ⟨t, hseq, ?_⟩
  obtain hp | hp | hp | hp := busy_iff.1 hb
  · obtain ⟨ht, -⟩ := hquant hp
    cases hc : s.chain <;> simp [State.busy, Phase.busy, Phase.stagesLeft, ht, hp, hc]
  · obtain ⟨ht, -⟩ := hreduce hp
    cases hc : s.chain <;> simp [State.busy, Phase.busy, Phase.stagesLeft, ht, hp, hc]
  · obtain ⟨ht, -⟩ := hrestore hp
    cases hc : s.chain <;> simp [State.busy, Phase.busy, Phase.stagesLeft, ht, hp, hc]
  · obtain ⟨ht, -⟩ := hpack hp
    simp [Phase.stagesLeft, ht, hp]

end Progress

/-- Settles O51: the invariant says that the operands of the stage are legal. -/
theorem stagesAdvancePhaseAndNeverFail : Obligations.StagesAdvancePhaseAndNeverFail := by
  unfold Obligations.StagesAdvancePhaseAndNeverFail
  exact fun s hinv => seqTurn_of_stageReady hinv.ready

section Runs

variable {s t : State}

/-- R155: with HOST making no access, no step of SEQ enters FAILED, however many there are. -/
theorem run_not_failed (hinv : s.Inv) (hhost : s.host = []) (hp : s.phase ≠ .failed) (k : Nat) :
    ∃ t, core.run k s = .next t ∧ t.phase ≠ .failed := by
  induction k generalizing s with
  | zero => exact ⟨s, core_run_zero s, hp⟩
  | succ k ih =>
    obtain ⟨u, hseq, -⟩ := seqTurn_of_stageReady hinv.ready
    have hstep : step s = .next u := (step_of_no_move hhost).trans hseq
    obtain ⟨-, hphase⟩ := seqTurn_phase_err hseq
    rw [core_run_succ hstep]
    exact ih (hinv.step hstep) ((seqTurn_host hseq).trans hhost) (mt hphase.1 hp)

/-- R181: with HOST making no access, SEQ reaches DONE in as many steps as there are stages left. -/
theorem run_reaches_done (n : Nat) (hinv : s.Inv) (hb : s.busy = true) (hhost : s.host = [])
    (hn : s.phase.stagesLeft ≤ n) : ∃ k t, k ≤ n ∧ core.run k s = .next t ∧ t.phase = .done := by
  induction n generalizing s with
  | zero =>
    obtain ⟨u, -, -, hlt⟩ := seqTurn_progress hinv.ready hb
    omega
  | succ n ih =>
    obtain ⟨u, hseq, hdone | hbusy, hlt⟩ := seqTurn_progress hinv.ready hb
    all_goals have hstep : step s = .next u := (step_of_no_move hhost).trans hseq
    · exact ⟨1, u, by omega, core_run_succ hstep, hdone⟩
    · obtain ⟨k, t, hk, hrun, hdone⟩ := ih (hinv.step hstep) hbusy ((seqTurn_host hseq).trans hhost) (by omega)
      exact ⟨k + 1, t, by omega, (core_run_succ hstep).trans hrun, hdone⟩

theorem pollStatus_of_not_busy (hb : s.busy = false) : pollStatus s = s.receive (.reg .status s.status) :=
  if_neg (by simp [hb])

theorem pollStatus_of_busy (hb : s.busy = true) :
    pollStatus s = (s.receive (.reg .status s.status)).setHost (.pause :: .wait :: s.host) := if_pos hb

/-- R77: from DONE or FAILED, WAIT ends at its first poll. -/
theorem run_wait_of_not_busy (hb : s.busy = false) (hhost : s.host = [.wait]) (hidle : s.phase ≠ .idle) :
    ∃ k t, core.run k s = .next t ∧ t.host = [] ∧ (t.phase = .done ∨ t.phase = .failed) := by
  have hstep : step s = .next ((s.setHost []).receive (.reg .status s.status)) := by
    rw [step_of_wait hhost, pollStatus_of_not_busy (by simpa using hb), setHost_status]
  refine ⟨1, _, core_run_succ hstep, rfl, ?_⟩
  obtain (hp | hp) | hp := phase_of_not_busy hb
  · exact absurd hp hidle
  · exact .inl hp
  · exact .inr hp

/-- R77: while BUSY, WAIT polls, gives SEQ its turn and is still to be made. -/
theorem poll_then_turn (hready : s.stageReady) (hb : s.busy = true) (hhost : s.host = [.wait]) :
    ∃ u v, step s = .next u ∧ step u = .next v ∧ v.host = [.wait] ∧ (v.phase = .done ∨ v.busy = true) ∧
      v.phase.stagesLeft < s.phase.stagesLeft := by
  have hpoll : step s = .next (((s.setHost []).receive (.reg .status s.status)).setHost [.pause, .wait]) := by
    rw [step_of_wait hhost, pollStatus_of_busy (by simpa using hb), setHost_status]
    rfl
  obtain ⟨v, hseq, hnext, hlt⟩ :=
    seqTurn_progress (s := ((s.setHost []).receive (.reg .status s.status)).setHost [.wait]) hready hb
  exact ⟨_, v, hpoll, (step_of_pause rfl).trans hseq, seqTurn_host hseq, hnext, hlt⟩

/-- R77, R181: WAIT ends, and then PHASE is DONE or FAILED, unless it was IDLE. -/
theorem run_wait (n : Nat) (hinv : s.Inv) (hhost : s.host = [.wait]) (hidle : s.phase ≠ .idle)
    (hn : s.phase.stagesLeft ≤ n) :
    ∃ k t, core.run k s = .next t ∧ t.host = [] ∧ (t.phase = .done ∨ t.phase = .failed) := by
  induction n generalizing s with
  | zero =>
    refine run_wait_of_not_busy (Bool.eq_false_iff.2 fun hb => ?_) hhost hidle
    obtain ⟨u, v, -, -, -, -, hlt⟩ := poll_then_turn hinv.ready hb hhost
    omega
  | succ n ih =>
    cases hb : s.busy with
    | false => exact run_wait_of_not_busy hb hhost hidle
    | true =>
      obtain ⟨u, v, hpoll, hturn, hhost', hnext, hlt⟩ := poll_then_turn hinv.ready hb hhost
      have hidle' : v.phase ≠ .idle := by
        rintro hp
        simp [State.busy, Phase.busy, hp] at hnext
      obtain ⟨k, t, hrun, hend⟩ := ih ((hinv.step hpoll).step hturn) hhost' hidle' (by omega)
      exact ⟨k + 2, t, (core_run_succ hpoll).trans ((core_run_succ hturn).trans hrun), hend⟩

theorem State.Inv.setHost (h : s.Inv) (moves : List HostMove) : (s.setHost moves).Inv where
  wf := by simpa using h.wf
  within := by simpa using h.within
  err_none_iff := h.err_none_iff
  err_reachable := h.err_reachable
  ready := h.ready
  olen_even := h.olen_even

/-- R135, R138: only CLR leads to IDLE. -/
theorem exec_phase_ne_idle {i : Instr} (hi : i ≠ .clr) (h : exec i s = .next t) : t.phase ≠ .idle := by
  obtain ⟨hclr, -⟩ | ⟨-, hp, rfl⟩ | ⟨-, -, c, -, rfl⟩ | ⟨-, hstart⟩ := exec_cases h
  · exact absurd hclr hi
  · simp [hp]
  · exact nofun
  · obtain ⟨-, -, rfl⟩ | ⟨-, -, rfl⟩ | ⟨-, -, rfl⟩ | ⟨-, -, rfl⟩ | ⟨-, -, rfl⟩ := hstart <;> exact nofun

end Runs

/-- Settles O47: a word written to CMD writes PHASE, ERR and CHAIN only, and SEQ enters FAILED from no state that meets
the invariant. -/
theorem failuresArePrecise : Obligations.FailuresArePrecise := by
  unfold Obligations.FailuresArePrecise
  refine ⟨fun s t c rest hhost hstep _ => ?written, fun s hinv hb hhost k => ?later⟩
  case written =>
    rw [step_of_cmdWrite hhost] at hstep
    obtain ⟨helems, hops, hrlen, holen, houtside⟩ := writeCommand_frame hstep
    exact ⟨fun b i => (helems b i).trans (setHost_readElem ..), hops, hrlen, holen, houtside⟩
  case later =>
    have hp : s.phase ≠ .failed := fun hp => absurd hb (Bool.eq_false_iff.1 (not_busy_of_failed hp))
    exact run_not_failed hinv hhost hp k

/-- Settles O56: a RUN has four stages. -/
theorem everyAcceptedCommandEnds : Obligations.EveryAcceptedCommandEnds := by
  unfold Obligations.EveryAcceptedCommandEnds
  exact fun s hinv hb hhost => run_reaches_done 4 hinv hb hhost s.phase.stagesLeft_le

/-- Settles O57: the command is executed or fails at its first step, and then WAIT ends. -/
theorem waitAfterACommandEnds : Obligations.WaitAfterACommandEnds := by
  unfold Obligations.WaitAfterACommandEnds
  intro s i hinv hb hi
  obtain ⟨u, hexec⟩ := exec_answers (s := s.setHost [.wait]) hb i
  have hcmd : writeCommand (encode i) (s.setHost [.wait]) = .next u := (writeCommand_of_ok (decode_encode i)).trans hexec
  have hstep : step (s.setHost [.access (.regWrite 0 (encode i)), .wait]) = .next u := (step_of_cmdWrite rfl).trans hcmd
  obtain ⟨-, -, -, -, -, hhost, -⟩ := writeCommand_frame hcmd
  obtain ⟨k, t, hrun, hend⟩ := run_wait 4 ((hinv.setHost _).step hstep) hhost (exec_phase_ne_idle hi hexec)
    u.phase.stagesLeft_le
  exact ⟨k + 1, t, (core_run_succ hstep).trans hrun, hend⟩

end Sys2Proof.Machine

/-! SUPPORT. The quantizer as a shift and its facts, and obligations O18 and O19 (40_quantizer.md R94, R95). -/

namespace Sys2Proof.Machine

section QuantizerFacts

variable {b : Nat} {v u : Int}

/-- The scale and the number of values of depth b are powers of 2 whose product is the number of 16-bit values. -/
theorem depthHalf_mul_scale (hb : 1 ≤ b) (hb' : b ≤ 16) : (2 : Int) ^ (b - 1) * scale b = 32768 := by
  rw [scale, ← pow_add, show b - 1 + (16 - b) = 15 by omega]
  rfl

/-- R94: the floor quotient of a 16-bit sample lies in the range of the depth already. -/
theorem floordiv_scale_bounds (hb : 1 ≤ b) (hb' : b ≤ 16) (hv : InS16 v) :
    minVal b ≤ floordiv v (scale b) ∧ floordiv v (scale b) ≤ maxVal b := by
  have hprod := depthHalf_mul_scale hb hb'
  rw [floordiv_eq_ediv v (scale_pos b), minVal, maxVal, Int.le_sub_one_iff]
  refine ⟨Int.le_ediv_of_mul_le (scale_pos b) ?_, Int.ediv_lt_of_lt_mul (scale_pos b) ?_⟩
  · rw [Int.neg_mul, hprod]
    exact hv.1
  · rw [hprod]
    omega

/-- R94: so the clamp leaves it as it is. -/
theorem quantizeOne_of_inS16 (hb : 1 ≤ b) (hb' : b ≤ 16) (hv : InS16 v) : quantizeOne v b = floordiv v (scale b) := by
  obtain ⟨hmin, hmax⟩ := floordiv_scale_bounds hb hb' hv
  exact clamp_of_mem hmin hmax

/-- A 16-bit value is read back from its two's-complement pattern (R11). -/
theorem toInt_ofInt_of_inS16 (hv : InS16 v) : (BitVec.ofInt 16 v).toInt = v := toInt_ofInt (b := .src) hv

theorem toInt_sshiftRight_of_inS16 (hv : InS16 v) : ((BitVec.ofInt 16 v).sshiftRight (16 - b)).toInt =
    floordiv v (scale b) := by
  rw [BitVec.toInt_sshiftRight, toInt_ofInt_of_inS16 hv, Int.shiftRight_eq_div_pow, floordiv_eq_ediv v (scale_pos b),
    scale]
  norm_cast

theorem clamp_mono {lo hi : Int} (hlohi : lo ≤ hi) (h : v ≤ u) : clamp v lo hi ≤ clamp u lo hi := by
  simp only [clamp]
  split_ifs <;> omega

/-- R95 (a). -/
theorem quantizeOne_mono (h : v ≤ u) : quantizeOne v b ≤ quantizeOne u b := by
  refine clamp_mono (minVal_le_maxVal b) ?_
  rw [floordiv_eq_ediv v (scale_pos b), floordiv_eq_ediv u (scale_pos b)]
  exact Int.ediv_le_ediv (scale_pos b) h

/-- R95 (d). -/
theorem quantizeOne_zero_negOne (hb : 1 ≤ b) (hb' : b ≤ 16) : quantizeOne 0 b = 0 ∧ quantizeOne (-1) b = -1 := by
  have hscale := scale_pos b
  rw [quantizeOne_of_inS16 hb hb' (by decide), quantizeOne_of_inS16 hb hb' (by decide)]
  exact ⟨floordiv_unique hscale (by omega) (by omega), floordiv_unique hscale (by omega) (by omega)⟩

end QuantizerFacts

/-- Settles O18: on 16-bit input the clamp has no effect, and the floor quotient by a power of 2 is the shift. -/
theorem quantizeIsAShiftOnSixteenBits : Obligations.QuantizeIsAShiftOnSixteenBits := by
  unfold Obligations.QuantizeIsAShiftOnSixteenBits
  intro v b hb hb' hv
  have hquot := quantizeOne_of_inS16 hb hb' hv
  exact ⟨hquot, hquot.trans (toInt_sshiftRight_of_inS16 hv).symm⟩

/-- Settles O19: (b), (c) and (e) are facts of the floor quotient, which on 16-bit input the clamp leaves as it is. -/
theorem quantizeFacts : Obligations.QuantizeFacts := by
  unfold Obligations.QuantizeFacts
  refine ⟨fun v u b _ _ => quantizeOne_mono, fun v hv => ?identity, fun v hv => ?sign,
    fun b => quantizeOne_zero_negOne, fun v b hb hb' hv => ?rescaled⟩
  case identity =>
    rw [quantizeOne_of_inS16 (by decide) le_rfl hv]
    exact floordiv_unique (scale_pos 16) (by simp [scale]) (by simp [scale])
  case sign =>
    rw [quantizeOne_of_inS16 le_rfl (by decide) hv]
    have hscale : scale 1 = 32768 := rfl
    split_ifs <;> exact floordiv_unique (scale_pos 1) (by omega) (by omega)
  case rescaled =>
    obtain ⟨hlow, hhigh⟩ := floordiv_spec v (scale_pos b)
    rw [quantizeOne_of_inS16 hb hb' hv, floormod, ← scale]
    rw [Int.add_mul, Int.one_mul] at hhigh
    exact ⟨by rw [Int.mul_comm]; omega, hlow, by omega⟩

end Sys2Proof.Machine

/-! SUPPORT. Facts of the reduced sequence, and obligations O25 and O27 (41_downsampler.md R105, 10_state.md R33). -/

namespace Sys2Proof.Machine

section ReducedValues

variable {q : List Int} {w k : Nat} {v : Int}

/-- R102, R103: element k of the reduced sequence is the first element of highest count of window k. -/
theorem exists_getElem?_reduce (hw : 1 ≤ w) (hk : k < ceildiv q.length w) :
    ∃ v, (reduce q w)[k]? = some v ∧ IsFirstOfHighestCount (freq q) (windowAt q w k) v := by
  obtain ⟨v, hrep, hfirst⟩ := exists_representative (freq q) (windowAt_ne_nil hw hk)
  exact ⟨v, (getElem?_reduce hw hk).trans hrep, hfirst⟩

/-- R101: window k of width 1 is element k. -/
theorem windowAt_one (hk : k < q.length) : windowAt q 1 k = [q[k]] := by
  have hlen : windowHi k 1 q.length - windowLo k 1 = 1 := by
    rw [windowHi, windowLo, Nat.mul_one, Nat.mul_one, Nat.min_eq_left hk, Nat.add_sub_cancel_left k 1]
  rw [windowAt, hlen, windowLo, Nat.mul_one, List.drop_eq_getElem_cons hk]
  rfl

/-- R105 (b). -/
theorem reduce_one (q : List Int) : reduce q 1 = q := by
  have hceil : ceildiv q.length 1 = q.length := by simp [ceildiv]
  refine List.ext_getElem? fun k => ?_
  by_cases hk : k < q.length
  · rw [getElem?_reduce le_rfl (by rwa [hceil]), windowAt_one hk, List.getElem?_eq_getElem hk]
    rfl
  · have hlen : (reduce q 1).length = q.length := (reduce_length q le_rfl).trans hceil
    rw [List.getElem?_eq_none (by omega), List.getElem?_eq_none (by omega)]

/-- R101: a sequence no longer than the window is one window. -/
theorem windowAt_whole (hle : q.length ≤ w) : windowAt q w 0 = q := by
  simp [windowAt, windowLo, windowHi, Nat.min_eq_right hle]

theorem ceildiv_eq_one {n : Nat} (hpos : 1 ≤ n) (hle : n ≤ w) : ceildiv n w = 1 := by
  rw [ceildiv, Nat.div_eq_iff (by omega)]
  omega

/-- The first element of highest count stands in front of every other of that count (R102). -/
theorem IsFirstOfHighestCount.idxOf_le {f : Int → Nat} {win : List Int} {u : Int} (h : IsFirstOfHighestCount f win v)
    (hu : u ∈ win) (hf : f u = f v) : win.idxOf v ≤ win.idxOf u := by
  obtain ⟨before, after, rfl, hbefore, -⟩ := h
  have hv : v ∉ before := fun hv => absurd (hbefore v hv) (Nat.lt_irrefl _)
  have hu' : u ∉ before := fun hu' => absurd (hbefore u hu') (by omega)
  rw [List.idxOf_append_of_notMem hv, List.idxOf_append_of_notMem hu']
  simp

/-- R105 (c). -/
theorem reduce_of_length_le (hpos : 1 ≤ q.length) (hle : q.length ≤ w) :
    ∃ v, reduce q w = [v] ∧ IsFirstOfHighestCount (freq q) q v := by
  have hw : 1 ≤ w := hpos.trans hle
  have hone := ceildiv_eq_one hpos hle
  obtain ⟨v, hget, hfirst⟩ := exists_getElem?_reduce (k := 0) hw (hone ▸ Nat.one_pos)
  rw [windowAt_whole hle] at hfirst
  obtain ⟨x, hx⟩ := List.length_eq_one_iff.1 ((reduce_length q hw).trans hone)
  rw [hx] at hget ⊢
  obtain rfl : x = v := by simpa using hget
  exact ⟨x, rfl, hfirst⟩

/-- R105 (d). -/
theorem getElem?_reduce_of_strict (hw : 1 ≤ w) (hk : k < ceildiv q.length w) (hv : v ∈ windowAt q w k)
    (hstrict : ∀ u ∈ windowAt q w k, u ≠ v → freq q u < freq q v) : (reduce q w)[k]? = some v := by
  obtain ⟨u, hget, hfirst⟩ := exists_getElem?_reduce hw hk
  by_cases huv : u = v
  · rw [hget, huv]
  · exact absurd (hstrict u hfirst.mem huv) (Nat.not_lt.2 (hfirst.le v hv))

/-- R105 (f): with equal counts the first element is the representative. -/
theorem IsFirstOfHighestCount.head?_eq {f : Int → Nat} {win : List Int} (h : IsFirstOfHighestCount f win v)
    (heq : ∀ u ∈ win, f u = f v) : win.head? = some v := by
  obtain ⟨before, after, rfl, hbefore, -⟩ := h
  cases before with
  | nil => rfl
  | cons x rest =>
    have hlt := hbefore x List.mem_cons_self
    have hx := heq x (by simp)
    omega

end ReducedValues

/-- Settles O25: (a), (c), (d) and (f) are facts of the first element of highest count. For (e), the window [1, 2] has the
representative of what follows it. -/
theorem reduceFacts : Obligations.ReduceFacts := by
  unfold Obligations.ReduceFacts
  refine ⟨fun q w k hw hk => ?member, reduce_one, fun q w hpos hle => ?oneWindow,
    fun q w k v => getElem?_reduce_of_strict, ⟨[1, 2, 1], [1, 2, 2], 2, 0, by decide⟩, fun q w k hw hk heq => ?ties⟩
  case member =>
    obtain ⟨v, hget, hfirst⟩ := exists_getElem?_reduce hw hk
    exact ⟨v, hfirst.mem, mem_of_mem_windowAt hfirst.mem, hget⟩
  case oneWindow =>
    obtain ⟨v, hreduce, hfirst⟩ := reduce_of_length_le hpos hle
    exact ⟨v, hfirst.mem, hreduce, fun u hu => ⟨hfirst.le u hu, hfirst.idxOf_le hu⟩⟩
  case ties =>
    obtain ⟨v, hget, hfirst⟩ := exists_getElem?_reduce hw hk
    rw [hget, hfirst.head?_eq fun u hu => heq u hu v hfirst.mem]

section ReducerInputs

variable {s t : State}

/-- Blocks of a buffer are equal when their elements are. -/
theorem memRead_eq_of_readElem {b : Buf} {n : Nat} (h : ∀ i, i < n → t.readElem b i = s.readElem b i) :
    t.memRead b 0 n = s.memRead b 0 n :=
  List.map_congr_left fun j hj => by
    rw [State.readInt, State.readInt, Nat.zero_add, h j (List.mem_range.1 hj)]

/-- An element of RED after the stage, in terms of the reduced sequence (R104). -/
theorem reduceEffect_readElem_red {r : List Int} (hr : reduce (s.memRead .q 0 s.count) s.windowSize = r) {k : Nat}
    (hk : k < r.length) : (reduceEffect s).readElem .red k = BitVec.ofInt 16 r[k] := by
  subst hr
  rw [readElem_congr (reduceEffect_buf .red) reduceEffect_draw, readElem_memWrite, dif_pos (by omega)]
  rfl

end ReducerInputs

/-- Settles O27: the stage reads WINDOW, LEN and Q[0..n) and nothing else. -/
theorem reduceDependsOnItsInputsAlone : Obligations.ReduceDependsOnItsInputsAlone := by
  unfold Obligations.ReduceDependsOnItsInputsAlone
  intro s t hs ht hwin hlen hwindow hlen' hq
  have hw : t.windowSize = s.windowSize := congrArg BitVec.toNat hwindow
  have hn : t.count = s.count := congrArg BitVec.toNat hlen'
  have hinput : t.memRead .q 0 t.count = s.memRead .q 0 s.count := by rw [hn, memRead_eq_of_readElem hq]
  have hreduced : reduce (t.memRead .q 0 t.count) t.windowSize = reduce (s.memRead .q 0 s.count) s.windowSize := by
    rw [hinput, hw]
  refine ⟨reduceEffect s, reduceEffect t, seqTurn_reducing hs hwin hlen,
    seqTurn_reducing ht (by rwa [hw]) (by rwa [hn]), ?_, fun k hk => ?_⟩
  · simp only [reduceEffect, advance_rlen, storeReduced_rlen, hreduced]
  · have hk' : k < (reduce (s.memRead .q 0 s.count) s.windowSize).length := by rwa [reduce_memRead_length hwin]
    rw [reduceEffect_readElem_red rfl hk', reduceEffect_readElem_red hreduced hk']

end Sys2Proof.Machine

/-! SUPPORT. The expansion and the forced length, restoring what was quantized or reduced, and obligations O28, O30, O31 and
O55 (42_upsampler.md R111 to R117, 10_state.md R34). -/

namespace Sys2Proof.Machine

section Expansion

variable {r e : List Int} {l b w i : Nat} {x : Int}

@[simp] theorem expand_length (r : List Int) (b w : Nat) : (expand r b w).length = r.length * w := by
  simp [expand, List.length_flatMap]

/-- R111: element i of the expansion is the rescaled element `idiv i w`. -/
theorem getElem?_expand (hw : 1 ≤ w) (r : List Int) (i : Nat) :
    (expand r b w)[i]? = r[idiv i w]?.map fun v => rescale v b := by
  induction r generalizing i with
  | nil => simp [expand]
  | cons v r ih =>
    have hcons : expand (v :: r) b w = List.replicate w (rescale v b) ++ expand r b w := List.flatMap_cons
    rw [hcons]
    by_cases hi : i < w
    · rw [List.getElem?_append_left (by simpa using hi), List.getElem?_replicate_of_lt hi, idiv, Nat.div_eq_of_lt hi]
      rfl
    · have hidiv : idiv i w = idiv (i - w) w + 1 := Nat.div_eq_sub_div hw (Nat.le_of_not_lt hi)
      rw [List.getElem?_append_right (by simpa using hi), List.length_replicate, ih, hidiv, List.getElem?_cons_succ]

@[simp] theorem forceLength_length (e : List Int) (l : Nat) : (forceLength e l).length = l := by
  unfold forceLength
  split_ifs with h
  · rw [List.length_append, List.length_replicate]
    omega
  · rw [List.length_take]
    omega

/-- R112: below the length forced, an element is as before or, past the end, a zero. -/
theorem getElem?_forceLength (hi : i < l) : (forceLength e l)[i]? = some (e[i]?.getD 0) := by
  unfold forceLength
  split_ifs with h
  · by_cases he : i < e.length
    · rw [List.getElem?_append_left he, List.getElem?_eq_getElem he, Option.getD_some]
    · rw [List.getElem?_append_right (Nat.le_of_not_lt he), List.getElem?_replicate_of_lt (by omega),
        List.getElem?_eq_none (Nat.le_of_not_lt he), Option.getD_none]
  · have he : i < e.length := by omega
    rw [List.getElem?_take_of_lt hi, List.getElem?_eq_getElem he, Option.getD_some]

/-- R113: the closed form is the expansion forced to the length. -/
theorem restore_eq_forceLength (hw : 1 ≤ w) : restore r l b w = forceLength (expand r b w) l := by
  refine List.ext_getElem? fun i => ?_
  by_cases hi : i < l
  · rw [getElem?_restore hi, getElem?_forceLength hi, getElem?_expand hw]
  · rw [List.getElem?_eq_none (by simpa using hi), List.getElem?_eq_none (by simpa using hi)]

end Expansion

/-- Settles O28: the closed form and the expansion forced to the length agree at every index. -/
theorem restoreIsExpansionForcedToLength : Obligations.RestoreIsExpansionForcedToLength := by
  unfold Obligations.RestoreIsExpansionForcedToLength
  intro r l b w _ _ hw
  refine ⟨expand_length r b w, fun i h => ?expanded, fun i h hi => ?inside, fun i h hi => ?padded,
    restore_eq_forceLength hw⟩
  case expanded =>
    rw [getElem?_expand hw, List.getElem?_eq_getElem h, Option.map_some]
  case inside =>
    rw [getElem?_restore hi, List.getElem?_eq_getElem h, Option.map_some, Option.getD_some]
  case padded =>
    rw [getElem?_restore hi, List.getElem?_eq_none h, Option.map_none, Option.getD_none]

section QuantizedDepth

variable {r : List Int} {l b w : Nat} {v x : Int}

/-- R116 (b): a value of depth b, rescaled, lies in the 16-bit range, at least a scale below its end. -/
theorem rescale_bounds_of_depth (hb : 1 ≤ b) (hb' : b ≤ 16) (hv : minVal b ≤ v ∧ v ≤ maxVal b) :
    -32768 ≤ rescale v b ∧ rescale v b ≤ 32768 - scale b := by
  have hprod := depthHalf_mul_scale hb hb'
  have hmin : minVal b * scale b = -32768 := by rw [minVal, Int.neg_mul, hprod]
  have hmax : maxVal b * scale b = 32768 - scale b := by rw [maxVal, Int.sub_mul, hprod, Int.one_mul]
  have hscale := (scale_pos b).le
  exact ⟨hmin ▸ Int.mul_le_mul_of_nonneg_right hv.1 hscale, hmax ▸ Int.mul_le_mul_of_nonneg_right hv.2 hscale⟩

/-- R116 (b): so does every value restored from values of depth b. -/
theorem restore_bounds_of_depth (hb : 1 ≤ b) (hb' : b ≤ 16) (hr : ∀ v ∈ r, minVal b ≤ v ∧ v ≤ maxVal b)
    (hx : x ∈ restore r l b w) : -32768 ≤ x ∧ x ≤ 32768 - scale b ∧ scale b ∣ x := by
  obtain rfl | ⟨v, hv, rfl⟩ := eq_zero_or_rescale_of_mem_restore hx
  · have hscale := scale_le hb
    exact ⟨by decide, by omega, dvd_zero _⟩
  · obtain ⟨hlow, hhigh⟩ := rescale_bounds_of_depth hb hb' (hr v hv)
    exact ⟨hlow, hhigh, dvd_mul_left _ _⟩

end QuantizedDepth

/-- Settles O30: for (c), the sample 32767 at depth 1 is restored to 32767 * 2^15. -/
theorem restoredValuesAreBounded : Obligations.RestoredValuesAreBounded := by
  unfold Obligations.RestoredValuesAreBounded
  refine ⟨fun r l b w hb _ _ hr x hx => ?sixteenBits, rfl, rfl,
    fun r l b w hb hb' _ hr x => restore_bounds_of_depth hb hb' hr, ⟨[32767], 1, by decide⟩⟩
  case sixteenBits =>
    obtain ⟨hlow, hhigh⟩ := restore_bounds hb hr hx
    exact ⟨hlow, hhigh, restore_inRange hb hr hx⟩

section ReducedThenRestored

variable {n w : Nat}

/-- R9, R117: the windows cover the sequence and reach less than one window beyond it. -/
theorem ceildiv_mul_lt (n : Nat) (hw : 1 ≤ w) : ceildiv n w * w < n + w := by
  have hle : ceildiv n w * w ≤ n + w - 1 := Nat.div_mul_le_self (n + w - 1) w
  omega

/-- R117: they reach beyond it exactly when the width does not divide the length. -/
theorem lt_ceildiv_mul_iff (hw : 1 ≤ w) : n < ceildiv n w * w ↔ ¬w ∣ n := by
  obtain ⟨hcover, hleast⟩ := ceildiv_spec n hw
  constructor
  · rintro hlt ⟨m, rfl⟩
    have hle : ceildiv (w * m) w * w ≤ m * w := Nat.mul_le_mul_right w (hleast m (Nat.mul_comm w m).le)
    rw [Nat.mul_comm m w] at hle
    omega
  · intro hdvd
    exact lt_of_le_of_ne hcover fun heq => hdvd ⟨ceildiv n w, heq.trans (Nat.mul_comm ..)⟩

end ReducedThenRestored

/-- Settles O31: every index below the length has its window, and the rest is about `ceildiv n w * w`. -/
theorem restoreAfterReduceNeverPads : Obligations.RestoreAfterReduceNeverPads := by
  unfold Obligations.RestoreAfterReduceNeverPads
  intro q b w _ _ hw
  have hinside (i : Nat) (hi : i < q.length) : idiv i w < (reduce q w).length := by
    rw [reduce_length q hw]
    exact idiv_lt_ceildiv hw hi
  rw [expand_length, reduce_length q hw]
  refine ⟨fun i hi => reduce_length q hw ▸ hinside i hi, rfl, (ceildiv_spec q.length hw).1, ceildiv_mul_lt q.length hw,
    lt_ceildiv_mul_iff hw, fun i hi => ?_⟩
  rw [getElem?_restore hi, List.getElem?_eq_getElem (hinside i hi), Option.map_some, Option.getD_some]

/-- Settles O55: one lemma for each buffer, and LEN is at most NMAX. -/
theorem everyResultFitsItsBuffer : Obligations.EveryResultFitsItsBuffer := by
  unfold Obligations.EveryResultFitsItsBuffer
  intro s hbits hwin hlen
  refine ⟨fun v hv => ?quantized, fun v hv => ?reduced, fun v hv => ?restored, fun p _ => toNat_inByte p,
    ceildiv_le s.count hwin, by omega, by have := nmax_lt; omega⟩
  case quantized =>
    obtain ⟨u, -, hu⟩ := List.mem_map.1 hv
    obtain ⟨hmin, hmax⟩ := quantizeOne_bounds u s.depth
    exact ⟨hu ▸ hmin, hu ▸ hmax, quantize_inRange hbits.2 hv⟩
  case reduced =>
    have hmem := mem_of_mem_reduce hv
    exact ⟨hmem, memRead_inRange s (b := .q) hmem⟩
  case restored =>
    have hred : ∀ u ∈ s.memRead .red 0 s.reducedCount, InS16 u := fun u => memRead_inRange s (b := .red)
    obtain ⟨hlow, hhigh⟩ := restore_bounds hbits.1 hred hv
    exact ⟨hlow, hhigh, restore_inRange hbits.1 hred hv⟩

end Sys2Proof.Machine

/-! SUPPORT. The decoder of packed bytes, and obligations O34, O37, O38 and O39 (43_packer.md R121, R127 to R129). -/

namespace Sys2Proof.Machine

/-- Settles O34: both bytes are those of `encode16_map_toNat`, and `p` is `v` modulo 2^16. -/
theorem encodeIsLittleEndian : Obligations.EncodeIsLittleEndian := by
  unfold Obligations.EncodeIsLittleEndian
  intro v hv
  have hcode : (if v ≥ 0 then v else v + 65536) = v % 65536 := by split_ifs <;> omega
  rw [encode16_map_toNat, hcode]
  congr 1
  omega

section Decoder

variable {t : List Int} {v : Int} {bytes : List Byte} {i : Nat}

/-- R128: a pair of bytes as a 16-bit pattern, the least significant first. -/
theorem append_eq_ofNat (hi lo : Byte) : (hi ++ lo : BitVec 16) = BitVec.ofNat 16 (lo.toNat + 256 * hi.toNat) := by
  have hlo := lo.isLt
  have hhi := hi.isLt
  apply BitVec.eq_of_toNat_eq
  rw [BitVec.toNat_append, BitVec.toNat_ofNat, ← Nat.shiftLeft_add_eq_or_of_lt hlo, Nat.shiftLeft_eq]
  omega

theorem decodePairs_length : (bytes : List Byte) → (decodePairs bytes).length = bytes.length / 2
  | [] => rfl
  | [_] => by simp [decodePairs]
  | lo :: hi :: rest => by
    rw [decodePairs, List.length_cons, decodePairs_length rest, List.length_cons, List.length_cons]
    omega

/-- R128: sample i is the pair of bytes at 2i. -/
theorem getElem?_decodePairs : (bytes : List Byte) → (i : Nat) → (h : 2 * i + 1 < bytes.length) →
    (decodePairs bytes)[i]? = some (bytes[2 * i + 1] ++ bytes[2 * i] : BitVec 16).toInt
  | [], _, h => by simp at h
  | [_], _, h => by simp at h
  | lo :: hi :: rest, 0, _ => rfl
  | lo :: hi :: rest, i + 1, h => getElem?_decodePairs rest i (by simp only [List.length_cons] at h; omega)

theorem decodeSamples_one (bytes : List Byte) :
    decodeSamples bytes 1 = .ok (bytes.map fun p => (p.toNat : Int) - 128) := rfl

theorem decodeSamples_two (h : bytes.length % 2 = 0) : decodeSamples bytes 2 = .ok (decodePairs bytes) := by
  rw [decodeSamples, if_neg (by decide), if_pos rfl, if_pos h]

theorem decodeSamples_other {width : Nat} (hone : width ≠ 1) (htwo : width ≠ 2) :
    decodeSamples bytes width = .error .unsupportedSampleWidth := by
  rw [decodeSamples, if_neg hone, if_neg htwo]

/-- R127, R129: the two bytes of a 16-bit value decode to it. -/
theorem decodePairs_encode16_append (hv : InS16 v) (rest : List Byte) :
    decodePairs (encode16 v ++ rest) = v :: decodePairs rest := by
  have hpattern : ((BitVec.ofInt 16 v).extractLsb' 8 8 ++ (BitVec.ofInt 16 v).extractLsb' 0 8 : BitVec 16) =
      BitVec.ofInt 16 v :=
    (BitVec.extractLsb'_append_extractLsb'_eq_extractLsb' rfl).trans BitVec.extractLsb'_eq_self
  change BitVec.toInt _ :: decodePairs rest = _
  rw [hpattern, toInt_ofInt_of_inS16 hv]

theorem decodePairs_clampAndPack (t : List Int) : decodePairs (clampAndPack t) = t.map clamp16 := by
  induction t with
  | nil => rfl
  | cons v t ih =>
    have hcons : clampAndPack (v :: t) = encode16 (clamp16 v) ++ clampAndPack t := List.flatMap_cons
    rw [hcons, decodePairs_encode16_append (clamp16_inS16 v), ih, List.map_cons]

/-- R129: decoding what PACK emits gives the clipped samples. -/
theorem decodeSamples_clampAndPack (t : List Int) : decodeSamples (clampAndPack t) 2 = .ok (t.map clamp16) := by
  rw [decodeSamples_two (by rw [clampAndPack_length]; omega), decodePairs_clampAndPack]

theorem map_clamp16_of_inS16 (h : ∀ v ∈ t, InS16 v) : t.map clamp16 = t :=
  (List.map_congr_left fun v hv => clamp16_of_inS16 (h v hv)).trans t.map_id'

/-- The encoder succeeds on 16-bit values only, where it is PACK's (R122, R123). -/
theorem encodeSamples_eq_ok_iff : encodeSamples t = .ok bytes ↔ (∀ v ∈ t, InS16 v) ∧ bytes = clampAndPack t := by
  by_cases h : ∀ v ∈ t, InS16 v
  · have hpack := encodeSamples_map_clamp16 t
    rw [map_clamp16_of_inS16 h] at hpack
    rw [hpack, Except.ok.injEq, eq_comm]
    exact ⟨fun heq => ⟨h, heq⟩, And.right⟩
  · rw [encodeSamples, if_neg h]
    exact ⟨nofun, fun hok => absurd hok.1 h⟩

theorem decodeSamples_of_encodeSamples (h : encodeSamples t = .ok bytes) : decodeSamples bytes 2 = .ok t := by
  obtain ⟨hrange, rfl⟩ := encodeSamples_eq_ok_iff.1 h
  rw [decodeSamples_clampAndPack, map_clamp16_of_inS16 hrange]

end Decoder

/-- Settles O38: the encoder's bytes are PACK's, and pairs decode to the clipped samples. -/
theorem packRoundTrip : Obligations.PackRoundTrip := by
  unfold Obligations.PackRoundTrip
  refine ⟨fun t bytes => decodeSamples_of_encodeSamples, fun t hrange => ?_, decodeSamples_clampAndPack⟩
  have hok := encodeSamples_eq_ok_iff.2 ⟨hrange, rfl⟩
  exact ⟨clampAndPack t, hok, decodeSamples_of_encodeSamples hok⟩

/-- Settles O39: width 2 decodes pairs of bytes, and a pair is a 16-bit pattern. -/
theorem decodeSamplesByWidth : Obligations.DecodeSamplesByWidth := by
  unfold Obligations.DecodeSamplesByWidth
  intro bytes
  refine ⟨decodeSamples_one bytes, fun heven => ⟨decodePairs bytes, decodeSamples_two heven, decodePairs_length bytes,
    fun i h => ?_⟩, fun width => decodeSamples_other⟩
  rw [getElem?_decodePairs bytes i h, append_eq_ofNat]

section PackedBytes

variable {s : State} {i : Nat}

/-- R121, R124: the two bytes of OUT that hold one clipped sample after the stage. -/
theorem packEffect_outBytes (hi : i < s.count) :
    [(packEffect s).outByte (2 * i), (packEffect s).outByte (2 * i + 1)] = encode16 (clamp16 (s.readInt .rst i)) := by
  have htoNat : Function.Injective fun p : Byte => (p.toNat : Int) :=
    fun p p' h => BitVec.eq_of_toNat_eq (Int.ofNat_inj.1 h)
  obtain ⟨hlow, hhigh⟩ := packEffect_readInt_out hi
  apply List.map_injective_iff.2 htoNat
  rw [encode16_map_toNat, ← hlow, ← hhigh]
  rfl

end PackedBytes

/-- Settles O37: the pair is the encoding of the clipped sample. -/
theorem packedPairsDecodeToTheClippedSample : Obligations.PackedPairsDecodeToTheClippedSample := by
  unfold Obligations.PackedPairsDecodeToTheClippedSample
  intro s hp hlen
  refine ⟨packEffect s, seqTurn_clamping hp hlen, fun i hi => ?_⟩
  have hclipped := clamp16_inS16 (s.readInt .rst i)
  rw [packEffect_outBytes hi]
  exact ⟨decodePairs_encode16_append hclipped [], hclipped⟩

end Sys2Proof.Machine

/-! SUPPORT. RUN against the four commands, the provenance of its samples, and obligations O42 and O43 (44_sequencer.md
R139). -/

namespace Sys2Proof.Machine

section StagesIgnoreControl

variable {s : State} {p p' : Phase} {chain chain' : Bool}

/-! A stage computes from the registers and buffers; PHASE and CHAIN decide only the PHASE it ends in (R136). -/

theorem quantizeEffect_start : (quantizeEffect (s.start p chain)).start p' chain' =
    (quantizeEffect s).start p' chain' := rfl

theorem reduceEffect_start : (reduceEffect (s.start p chain)).start p' chain' = (reduceEffect s).start p' chain' := rfl

theorem restoreEffect_start : (restoreEffect (s.start p chain)).start p' chain' =
    (restoreEffect s).start p' chain' := rfl

theorem packEffect_start : packEffect (s.start p chain) = packEffect s := rfl

end StagesIgnoreControl

section RunTurns

variable {s : State}

theorem exec_run_accepted (hrest : s.phase = .idle ∨ s.phase = .done) (hbits : 1 ≤ s.depth ∧ s.depth ≤ 16)
    (hwin : 1 ≤ s.windowSize) (hlen : s.count ≤ Config.nmax) : exec .run s = .next (s.start .quantizing true) :=
  issue_accepted hrest (allHold_runChecks_iff.2 ⟨hbits, hwin, hlen⟩)

/-- R137: an accepted RUN is four turns of SEQ. -/
theorem seqTurns_runStart (hbits : 1 ≤ s.depth ∧ s.depth ≤ 16) (hwin : 1 ≤ s.windowSize)
    (hlen : s.count ≤ Config.nmax) : seqTurns 4 (s.start .quantizing true) = .next s.runPacked := by
  simp only [seqTurns, seqTurn_runStart hbits hlen, seqTurn_runQuantized hwin hlen,
    seqTurn_runReduced hbits hwin hlen, seqTurn_runRestored hlen]

end RunTurns

section CommandsInTurn

variable {s : State}

/-- QUANT, REDUCE and RESTORE leave DONE when no RUN is in progress, so that the next command can be accepted (R136). -/
theorem quantizeEffect_start_phase : (quantizeEffect (s.start .quantizing false)).phase = .done := rfl
theorem reduceEffect_start_phase : (reduceEffect (s.start .reducing false)).phase = .done := rfl
theorem restoreEffect_start_phase : (restoreEffect (s.start .restoring false)).phase = .done := rfl

/-- After QUANT, REDUCE starts on what QUANTIZING leaves in a RUN. -/
theorem exec_reduce_after_quantizing (hwin : 1 ≤ s.windowSize) (hlen : s.count ≤ Config.nmax) :
    exec .reduce (quantizeEffect (s.start .quantizing false)) = .next (s.runQuantized.start .reducing false) := by
  have hops : SameOperands s (quantizeEffect (s.start .quantizing false)) := quantizeEffect_sameOperands
  refine (issue_accepted (.inr quantizeEffect_start_phase) (allHold_reduceChecks_iff.2 ?_)).trans ?_
  · rw [hops.windowSize_eq, hops.count_eq]
    exact ⟨hwin, hlen⟩
  · rw [quantizeEffect_start, State.runQuantized, quantizeEffect_start]

/-- After REDUCE, RESTORE starts on what REDUCING leaves in a RUN; RLEN is at most LEN. -/
theorem exec_restore_after_reducing (hbits : 1 ≤ s.depth ∧ s.depth ≤ 16) (hwin : 1 ≤ s.windowSize)
    (hlen : s.count ≤ Config.nmax) : exec .restore (reduceEffect (s.runQuantized.start .reducing false)) =
      .next (s.runReduced.start .restoring false) := by
  have hops : SameOperands s (reduceEffect (s.runQuantized.start .reducing false)) :=
    runQuantized_sameOperands.trans reduceEffect_sameOperands
  have hrlen : (reduceEffect (s.runQuantized.start .reducing false)).reducedCount = ceildiv s.count s.windowSize :=
    runReduced_reducedCount hwin
  refine (issue_accepted (.inr reduceEffect_start_phase) (allHold_restoreChecks_iff.2 ?_)).trans ?_
  · rw [hops.depth_eq, hops.windowSize_eq, hops.count_eq, hrlen]
    exact ⟨hbits, hwin, hlen, (ceildiv_le s.count hwin).trans hlen⟩
  · rw [reduceEffect_start, State.runReduced]

/-- After RESTORE, PACK starts on what RESTORING leaves in a RUN. -/
theorem exec_pack_after_restoring (hlen : s.count ≤ Config.nmax) :
    exec .pack (restoreEffect (s.runReduced.start .restoring false)) = .next (s.runRestored.start .clamping false) := by
  have hops : SameOperands s (restoreEffect (s.runReduced.start .restoring false)) :=
    runReduced_sameOperands.trans restoreEffect_sameOperands
  refine (issue_accepted (.inr restoreEffect_start_phase) (allHold_packChecks_iff.2 ?_)).trans ?_
  · rwa [hops.count_eq]
  · rw [restoreEffect_start, State.runRestored]

end CommandsInTurn

/-- Settles O42: each command starts its stage on the state that the stage before leaves in a RUN, up to PHASE and CHAIN,
and no stage computes from those. -/
theorem runEqualsTheFourCommands : Obligations.RunEqualsTheFourCommands := by
  unfold Obligations.RunEqualsTheFourCommands
  intro s hrest hbits hwin hlen
  have hpack : seqTurn (s.runRestored.start .clamping false) = .next s.runPacked := by
    rw [seqTurn_clamping rfl (by simpa using hlen), packEffect_start, State.runPacked]
  exact ⟨_, _, _, _, _, _, _, _, _, exec_run_accepted hrest hbits hwin hlen, seqTurns_runStart hbits hwin hlen,
    issue_accepted hrest (allHold_quantChecks_iff.2 ⟨hbits, hlen⟩), seqTurn_quantizing rfl hbits hlen,
    exec_reduce_after_quantizing hwin hlen, seqTurn_reducing rfl (by simpa using hwin) (by simpa using hlen),
    exec_restore_after_reducing hbits hwin hlen,
    seqTurn_restoring rfl (by simpa using hbits) (by simpa using hwin) (by simpa using hlen),
    exec_pack_after_restoring hlen, hpack⟩

section Provenance

variable {s : State} {q : List Int} {v : Int} {w k i : Nat}

/-- An element of window k stands in the sequence at an index of that window (R101). -/
theorem exists_index_of_mem_windowAt (hw : 1 ≤ w) (h : v ∈ windowAt q w k) :
    ∃ j, j < q.length ∧ idiv j w = k ∧ q[j]? = some v := by
  obtain ⟨j, hj⟩ := List.mem_iff_getElem?.1 h
  have hlt : j < windowHi k w q.length - windowLo k w := by
    simpa using (List.getElem?_eq_some_iff.1 hj).1
  rw [getElem?_windowAt hlt] at hj
  have hle := windowHi_le_length k w q.length
  have hlen : windowLo k w + j < q.length := by omega
  exact ⟨windowLo k w + j, hlen, (idiv_eq_iff_in_window hw hlen).2 (by omega), hj⟩

/-- R139 (c): after RUN an element of RED is the quantization of a sample of its own window. -/
theorem runPacked_readInt_red (hbits : 1 ≤ s.depth ∧ s.depth ≤ 16) (hwin : 1 ≤ s.windowSize)
    (hk : k < ceildiv s.count s.windowSize) : ∃ j, j < s.count ∧ idiv j s.windowSize = k ∧
      s.runPacked.readInt .red k = quantizeOne (s.readInt .src j) s.depth := by
  have hq := runPacked_memRead_q hbits hwin
  have hred := congrArg (·[k]?) (runPacked_memRead_red hwin)
  obtain ⟨v, hget, hfirst⟩ := exists_getElem?_reduce (q := s.runPacked.memRead .q 0 s.count) (k := k) hwin (by simpa)
  obtain ⟨j, hlt, hj, hv⟩ := exists_index_of_mem_windowAt hwin hfirst.mem
  rw [memRead_length] at hlt
  simp only [hget, getElem?_memRead, if_pos hk, Nat.zero_add, Option.some.injEq] at hred
  rw [hq, getElem?_quantize, getElem?_memRead, if_pos hlt] at hv
  exact ⟨j, hlt, hj, hred.trans (by simpa using hv.symm)⟩

/-- R139 (b): after RUN an element of RST is the rescaled representative of its window; there is no padding. -/
theorem runPacked_readInt_rst (hbits : 1 ≤ s.depth ∧ s.depth ≤ 16) (hwin : 1 ≤ s.windowSize) (hi : i < s.count) :
    s.runPacked.readInt .rst i = rescale (s.runPacked.readInt .red (idiv i s.windowSize)) s.depth := by
  have hget := congrArg (·[i]?) (runPacked_memRead_rst hbits hwin)
  have hk := idiv_lt_ceildiv hwin hi
  simpa only [getElem?_memRead, getElem?_restore hi, if_pos hi, if_pos hk, Nat.zero_add, Option.map_some,
    Option.getD_some, Option.some.injEq] using hget

/-- CLAMPING reads RST as RUN leaves it. -/
theorem runPacked_outBytes (hi : i < s.count) :
    [s.runPacked.outByte (2 * i), s.runPacked.outByte (2 * i + 1)] = encode16 (clamp16 (s.runPacked.readInt .rst i)) := by
  have hrst : s.runPacked.readInt .rst i = s.runRestored.readInt .rst i :=
    congrArg (Buf.toInt .rst) (runPacked_sameElementsBut .rst i nofun)
  rw [hrst]
  exact packEffect_outBytes (by simpa using hi)

end Provenance

/-- Settles O43: each restored sample is a rescaled quantization, which lies in the 16-bit range. -/
theorem runNeverClips : Obligations.RunNeverClips := by
  unfold Obligations.RunNeverClips
  intro s hrest hbits hwin hlen
  refine ⟨_, _, exec_run_accepted hrest hbits hwin hlen, seqTurns_runStart hbits hwin hlen, fun i hi => ?_⟩
  obtain ⟨j, hj, hwindow, hred⟩ := runPacked_readInt_red hbits hwin (idiv_lt_ceildiv hwin hi)
  have hrst := runPacked_readInt_rst hbits hwin hi
  have hsample : s.runPacked.readInt .rst i = rescale (quantizeOne (s.readInt .src j) s.depth) s.depth := by
    rw [hrst, hred]
  obtain ⟨hlow, hhigh⟩ := rescale_bounds_of_depth hbits.1 hbits.2 (quantizeOne_bounds (s.readInt .src j) s.depth)
  rw [← hsample] at hlow hhigh
  have hscale := scale_pos s.depth
  have hclip : clamp16 (s.runPacked.readInt .rst i) = s.runPacked.readInt .rst i :=
    clamp16_of_inS16 ⟨hlow, by omega⟩
  exact ⟨hrst, hlow, hhigh, hclip, by rw [runPacked_outBytes hi, hclip], j, hj, hwindow, hsample⟩

end Sys2Proof.Machine
